-- ==== Sys2Proof/Word.lean ====
section
/-! DEFINITION. The word types of the engine: what the spec treats as bits.
A position in the program (`pc`, a loop-stack entry, the scan pointer) or on the tape (`dp`) is an index, not a word:
it is a `Nat`, and its width (PC_W, DP_W) follows from the configuration and is a statement about it (log entry 3). -/

namespace Sys2Proof

/-- One byte: a program byte, a tape cell (CELL_W = 8), a byte of a stream (00_scope.md R6, 20_memory.md R47). -/
abbrev Byte := BitVec 8

/-- The status register: STATUS_W = 8 bits (00_scope.md R12). -/
abbrev StatusWord := BitVec 8

end Sys2Proof
end

