-- ==== Sys2Proof/Config.lean ====
section
/-! DEFINITION. The implementation parameters of 00_scope.md section 4.
The parameters the spec leaves OPEN, the end-of-input policy, and the two values it makes normative and yet asks for
as configuration fields (D22) are the fields of `Config`; `State` carries a `Config`, which no step changes, so that a
statement about every state is one about every value of them. The terminator's value is a constant (log entry 5). -/

namespace Sys2Proof

/-- EOF_POLICY (00_scope.md R11): what `,` does to the current cell at end of input. -/
inductive EofPolicy where
  /-- The cell keeps its value. -/
  | keep
  /-- The cell becomes 0. -/
  | zero
  deriving DecidableEq, Repr

/-- The parameters of a build (00_scope.md section 4), with the default values the spec gives. -/
structure Config where
  /-- MAX_CODESIZE, OPEN: the longest program the engine runs. -/
  maxCodeSize : Nat
  /-- PAGE_SIZE, OPEN: no rule of the engine reads it; it only constrains `maxCodeSize`. -/
  pageSize : Nat
  /-- EOF_POLICY, by default KEEP. -/
  eofPolicy : EofPolicy := .keep
  /-- TAPE_SIZE, the cells of the tape: 65536, in a field so that an audit can change it (R5, D22). -/
  tapeSize : Nat := 65536
  /-- STACK_CAP, the entries of the loop-control stack: 4096, in a field likewise (R7, D22). -/
  stackCap : Nat := 4096
  deriving DecidableEq, Repr

/-- TERMINATOR (00_scope.md R10): the byte that stops the run when it is fetched. -/
def Config.terminator : Byte := 0x00

/-- What the spec requires of a choice of MAX_CODESIZE and PAGE_SIZE (00_scope.md R8), and that the tape has a cell for
`dp` to be at (log entry 5). -/
abbrev Config.wf (c : Config) : Prop := 1 ≤ c.maxCodeSize ∧ c.maxCodeSize % c.pageSize = 0 ∧ 1 ≤ c.tapeSize

/-- The least width that holds every value from 0 to `n` inclusive: `ceil(log2(n + 1))`, as 00_scope.md R9 has it. -/
def widthFor (n : Nat) : Nat := Nat.clog 2 (n + 1)

/-- PC_W (00_scope.md R9): the width of `pc`, of a loop-stack entry and of the two scanner registers. -/
def Config.pcW (c : Config) : Nat := widthFor c.maxCodeSize

/-- DP_W (00_scope.md R5): the width of `dp`, an index of the tape; 16 bits for 65536 cells. -/
def Config.dpW (c : Config) : Nat := widthFor (c.tapeSize - 1)

/-- DEPTH_W (00_scope.md R7): the width of the depth counter; 13 bits for 4096 entries. -/
def Config.depthW (c : Config) : Nat := widthFor c.stackCap

/-- The width of the `prog_len` port, one bit more than PC_W (00_scope.md R9, 90_conflicts.md C10). -/
def Config.progLenW (c : Config) : Nat := c.pcW + 1

/-- The parameters `State.reset` is built with. DESIGN CHOICE, unsafe: MAX_CODESIZE and PAGE_SIZE are OPEN in the
spec, and no statement rests on the values here (log entry 1). The other fields are at the spec's own defaults. -/
def Config.standard : Config := { maxCodeSize := 65536, pageSize := 1 }

end Sys2Proof
end

