-- ==== Sys2Proof/Syntax.lean ====
section
/-! DEFINITION. The instructions: one constructor per row of spec/opcode_table.json (30_encoding.md R61).
The instructions have no operands (R59, R65). `nop` keeps the byte it was read from, so that no bit of a program is
lost between its text and its instructions (log entry 8). -/

namespace Sys2Proof

/-- The ten decode classes of 30_encoding.md R61, in its order. -/
inductive Instr where
  /-- `>` RIGHT (40_pointer_cell.md R69). -/
  | right
  /-- `<` LEFT (40_pointer_cell.md R70). -/
  | left
  /-- `+` INC (40_pointer_cell.md R71). -/
  | inc
  /-- `-` DEC (40_pointer_cell.md R72). -/
  | dec
  /-- `[` OPEN (41_loop_control.md R77). -/
  | loopOpen
  /-- `]` CLOSE (41_loop_control.md R79). -/
  | loopClose
  /-- `.` OUT (42_io.md R84). -/
  | output
  /-- `,` IN (42_io.md R86). -/
  | input
  /-- The terminator, HALT (43_halt_nop.md R89). -/
  | halt
  /-- Any of the 247 other bytes, NOP (43_halt_nop.md R91). -/
  | nop (byte : Byte)
  deriving DecidableEq, Repr

end Sys2Proof
end

