-- ==== Sys2Proof/WellFormed.lean ====
section
/-! DEFINITION. Which terms of `Instr` stand for an instruction of the engine. -/

namespace Sys2Proof

/-- The nine byte values that are no NOP, as 43_halt_nop.md R91 lists them. -/
def notNopBytes : List Byte := [0x3E, 0x3C, 0x2B, 0x2D, 0x5B, 0x5D, 0x2E, 0x2C, 0x00]

/-- An instruction is well-formed unless it is a NOP with a byte of another row (43_halt_nop.md R91). -/
def Instr.wellFormed : Instr → Bool
  | .right => true
  | .left => true
  | .inc => true
  | .dec => true
  | .loopOpen => true
  | .loopClose => true
  | .output => true
  | .input => true
  | .halt => true
  | .nop b => !notNopBytes.contains b

end Sys2Proof
end

