-- ==== Sys2Proof/Decode.lean ====
section
/-! DEFINITION. The opcode map of 30_encoding.md, the decoder (R62), the encoder, and the instruction of an
opcode-table word. Decoding is total on the 256 bytes and refuses none (R62, R63). -/

namespace Sys2Proof

/-! ### The opcode map (30_encoding.md R60, R61) -/

def Opcode.right : Byte := 0x3E
def Opcode.left : Byte := 0x3C
def Opcode.inc : Byte := 0x2B
def Opcode.dec : Byte := 0x2D
def Opcode.loopOpen : Byte := 0x5B
def Opcode.loopClose : Byte := 0x5D
def Opcode.output : Byte := 0x2E
def Opcode.input : Byte := 0x2C

/-! ### The decoder -/

/-- `decode` of 30_encoding.md R62, its tests in its order. -/
def decodeByte (b : Byte) : Instr :=
  if b = Opcode.right then .right else if b = Opcode.left then .left
  else if b = Opcode.inc then .inc else if b = Opcode.dec then .dec
  else if b = Opcode.loopOpen then .loopOpen else if b = Opcode.loopClose then .loopClose
  else if b = Opcode.output then .output else if b = Opcode.input then .input
  else if b = Config.terminator then .halt
  else .nop b

/-- The instruction at the head of a byte sequence and the bytes after it: every instruction is one byte
(30_encoding.md R59, R64). Only the empty sequence has none. -/
def decode : List Byte → Option (Instr × List Byte)
  | [] => none
  | b :: rest => some (decodeByte b, rest)

/-- The instructions of a program text, one per byte (30_encoding.md R65). -/
def disassemble (bytes : List Byte) : List Instr := bytes.map decodeByte

/-! ### The encoder -/

/-- The byte of an instruction (30_encoding.md R61). -/
def encodeByte : Instr → Byte
  | .right => Opcode.right
  | .left => Opcode.left
  | .inc => Opcode.inc
  | .dec => Opcode.dec
  | .loopOpen => Opcode.loopOpen
  | .loopClose => Opcode.loopClose
  | .output => Opcode.output
  | .input => Opcode.input
  | .halt => Config.terminator
  | .nop b => b

/-- The bytes of an instruction: exactly one (30_encoding.md R59). -/
def encode (i : Instr) : List Byte := [encodeByte i]

/-- The program text of a sequence of instructions (30_encoding.md R65). -/
def assemble (p : List Instr) : List Byte := p.flatMap encode

/-! ### The opcode table (spec/opcode_table.json) -/

/-- One row of spec/opcode_table.json: the bytes `b` with `b &&& mask = value` that are not in `excludes`. -/
structure OpcodeRow where
  mnemonic : String
  value : Byte
  mask : Byte
  excludes : List Byte
  deriving DecidableEq, Repr

/-- Does a byte belong to a row of the table? -/
def OpcodeRow.holds (r : OpcodeRow) (b : Byte) : Bool := b &&& r.mask == r.value && !r.excludes.contains b

/-- The row of an instruction, transcribed from spec/opcode_table.json. -/
def Instr.row : Instr → OpcodeRow
  | .right => ⟨"RIGHT", 0x3E, 0xFF, []⟩
  | .left => ⟨"LEFT", 0x3C, 0xFF, []⟩
  | .inc => ⟨"INC", 0x2B, 0xFF, []⟩
  | .dec => ⟨"DEC", 0x2D, 0xFF, []⟩
  | .loopOpen => ⟨"OPEN", 0x5B, 0xFF, []⟩
  | .loopClose => ⟨"CLOSE", 0x5D, 0xFF, []⟩
  | .output => ⟨"OUT", 0x2E, 0xFF, []⟩
  | .input => ⟨"IN", 0x2C, 0xFF, []⟩
  | .halt => ⟨"HALT", 0x00, 0xFF, []⟩
  | .nop _ => ⟨"NOP", 0x00, 0x00, [0x3E, 0x3C, 0x2B, 0x2D, 0x5B, 0x5D, 0x2E, 0x2C, 0x00]⟩

/-! ### The host's questions about table words -/

/-- The one byte of the instruction whose table word is `w` on `nbits` bits (bits above `nbits` are 0). -/
def tableByte (nbits w : Nat) : Byte := BitVec.ofNat 8 (w % 2 ^ nbits)

/-- The instruction the decoder reads from a table word. -/
def decodeTableWord (nbits w : Nat) : Option Instr := (decode [tableByte nbits w]).map Prod.fst

end Sys2Proof
end

