-- ==== Sys2Proof/Machine/State.lean ====
section
/-! DEFINITION. The state of the engine as plain data, the ways a step can stop, and the state after reset
(10_state.md). -/

namespace Sys2Proof.Machine

/-- The run phase, a 2-bit register whose value 3 is never produced (10_state.md R29). -/
inductive Phase where
  | running
  | halted
  | faulted
  deriving DecidableEq, Repr

/-- The state of the cycle-level controller (10_state.md R34). -/
inductive Ctl where
  | exec
  | skip
  | waitIn
  | waitOut
  | done
  deriving DecidableEq, Repr

/-- The fatal errors the engine raises (60_exceptions.md R95). `UsageError` and `LoadError` are the surrounding
software's and never the engine's. -/
inductive FatalError where
  | programTooLarge
  | controlStackOverflow
  | unbalancedBracket
  deriving DecidableEq, Repr

/-- What one forward skip finds (41_loop_control.md R76). -/
inductive SkipResult where
  /-- `Match(m)`: the matching `]` stands at index `m`. -/
  | found (m : Nat)
  /-- `RunOff`: the scan met the end of the program at index `e`, at nesting depth `d`. -/
  | runOff (e d : Nat)
  deriving DecidableEq, Repr

/-- The answer to one input transaction (20_memory.md R45). -/
inductive InAnswer where
  | byte (b : Byte)
  | eof
  deriving DecidableEq, Repr

/-- The state of the engine, with the record of its two streams and the parameters of the run. -/
structure State where
  /-- Program counter, an index into `prog` (10_state.md R20). -/
  pc : Nat
  /-- Data pointer, an index into the tape (R22). -/
  dp : Nat
  /-- The tape (R23): the cells that are not 0, by rising index. -/
  tape : List Host.Cell
  /-- The live loop-stack entries, bottom first: `lstack[0 .. depth-1]` (R25, R28). -/
  lstack : List Nat
  /-- Run phase (R29). -/
  phase : Phase
  /-- Status register (R30). -/
  status : StatusWord
  /-- Hidden: the controller's state (R34). -/
  ctl : Ctl
  /-- Hidden: the scan pointer of a forward skip (R33). -/
  scan : Nat
  /-- Hidden: the nesting depth of a forward skip (R33). -/
  sdepth : Nat
  /-- Input bytes not yet consumed, before end-of-stream (R32). -/
  inp : List Byte
  /-- Output bytes written, in order (R32). -/
  out : List Byte
  /-- The program buffer, a parameter of the run (R19). -/
  prog : List Byte
  /-- The implementation parameters (00_scope.md section 4). -/
  cfg : Config
  deriving DecidableEq, Repr

/-- Why the machine stops without a next state. No instruction does; the engine's own fatal errors are next states. -/
inductive Fault where
  /-- `step` raises it when `pc` is beyond the end of the program, an access 20_memory.md R42 forbids ("requires
  0 <= i < len"). Safe: no state of a run has such a `pc` (10_state.md R21; log entry 6). -/
  | fetchOutsideProgram
  deriving DecidableEq, Repr

/-- Why the model declines a step. -/
inductive Refusal where
  /-- An instruction with no meaning in `exec`. Safe. No arm raises it: every instruction has its meaning. -/
  | notModelled (mnemonic : String)
  deriving DecidableEq, Repr

/-- What the engine finds at the start of a step (30_encoding.md R66, 60_exceptions.md R101). -/
inductive Fetched where
  /-- `phase` is not RUNNING: no step is taken. -/
  | ended
  /-- The program is longer than MAX_CODESIZE. -/
  | tooLarge
  /-- `pc == len`. -/
  | endOfBuffer
  /-- `pc > len`: nothing the spec lets the engine read. -/
  | outside
  /-- The instruction at `pc`. -/
  | instr (i : Instr)
  deriving DecidableEq, Repr

/-- The state when `rst` falls, for the build `cfg`, the program `prog` and the host's input `inp`
(10_state.md R37, 70_reset_and_hazards.md R113, R116). The spec leaves `scan` and `sdepth` unspecified:
DESIGN CHOICE 0, unsafe (log entry 4). -/
def State.resetWith (cfg : Config) (prog inp : List Byte) : State where
  pc := 0
  dp := 0
  tape := []
  lstack := []
  phase := .running
  status := 0
  ctl := .exec
  scan := 0
  sdepth := 0
  inp := inp
  out := []
  prog := prog
  cfg := cfg

/-- The machine right after reset, with nothing loaded (log entries 1 and 2). -/
def State.reset : State := State.resetWith Config.standard [] []

end Sys2Proof.Machine
end

