-- ==== Sys2Proof/Machine/Ops.lean ====
section
/-! DEFINITION. The named operations over the tape, the program, the loop stack, the streams and the run registers,
among them the two ways a run ends: `halt` and `raise`. The spec has no return from a fatal error
(60_exceptions.md R102): only reset leaves `FAULTED`. -/

namespace Sys2Proof.Machine

/-! ### The tape as a list of cells -/

/-- The canonical form of a tape of `size` cells: rising indices inside the tape, no entry equal to the 0 an unlisted
cell reads. -/
abbrev Memory.wf (size : Nat) (m : List Host.Cell) : Prop :=
  m.Pairwise (fun x y => x.1 < y.1) ∧ ∀ c ∈ m, c.1 < size ∧ c.2 ≠ 0

/-- `MemRead(a, 1)` (20_memory.md R41). An unlisted cell reads 0, the spec's reset contents (10_state.md R23). -/
def Memory.read : List Host.Cell → Nat → Byte
  | [], _ => 0
  | (i, v) :: rest, a => if i = a then v else Memory.read rest a

/-- Put a cell before the first one of a higher index. -/
def Memory.insert (a : Nat) (v : Byte) : List Host.Cell → List Host.Cell
  | [] => [(a, v)]
  | (i, w) :: rest => if a < i then (a, v) :: (i, w) :: rest else (i, w) :: Memory.insert a v rest

/-- `MemWrite(a, 1, v)` (20_memory.md R41), keeping the canonical form. -/
def Memory.write (m : List Host.Cell) (a : Nat) (v : Byte) : List Host.Cell :=
  let others := m.filter fun c => c.1 != a
  if v = 0 then others else Memory.insert a v others

/-! ### The program space -/

/-- `len` (10_state.md R19). -/
def State.len (s : State) : Nat := s.prog.length

/-- `ProgRead(i)` (20_memory.md R42); nothing at an index the program does not have. -/
def State.progRead (s : State) (i : Nat) : Option Byte := s.prog[i]?

/-- The program with the byte `b` at index `i`, lengthened with 0 bytes where it ends before `i`. Only the host
writes the program space (20_memory.md R40, R44). -/
def placeByte (prog : List Byte) (i : Nat) (b : Byte) : List Byte :=
  (prog ++ List.replicate (i - prog.length) 0).take i ++ b :: prog.drop (i + 1)

/-! ### The program counter -/

/-- `pc <- target` (10_state.md R20), with which an instruction completes: the controller is in EXEC again (R35). -/
def State.goto (s : State) (target : Nat) : State := { s with pc := target, ctl := .exec }

/-- The advance past a one-byte instruction (10_state.md R20, 30_encoding.md R59). -/
def State.advance (s : State) : State := s.goto (s.pc + 1)

/-! ### The loop stack (10_state.md R25, R27) -/

/-- `depth`: the number of live entries (R25, R28). -/
def State.depth (s : State) : Nat := s.lstack.length

/-- `push(v)`. Its caller has checked that the stack is not full. -/
def State.push (s : State) (v : Nat) : State := { s with lstack := s.lstack ++ [v] }

/-- `pop()`. Its caller has checked that the stack is not empty. -/
def State.pop (s : State) : State := { s with lstack := s.lstack.dropLast }

/-- `top()`, where the stack has one. -/
def State.top? (s : State) : Option Nat := s.lstack.getLast?

/-! ### The streams (20_memory.md R45, R46) -/

/-- The answer `InRead()` gets: the next input byte, or EOF, for ever, once there is none. -/
def State.inAnswer (s : State) : InAnswer :=
  match s.inp with
  | [] => .eof
  | b :: _ => .byte b

/-- The input after `InRead()`: an EOF consumes nothing. -/
def State.consume (s : State) : State := { s with inp := s.inp.tail }

/-- `OutWrite(b)`. -/
def State.outWrite (s : State) (b : Byte) : State := { s with out := s.out ++ [b] }

/-! ### The end of a run -/

/-- `halt()` (43_halt_nop.md R92); the controller goes to DONE (10_state.md R35). -/
def State.halt (s : State) : State := { s with phase := .halted, status := 0, ctl := .done }

/-- The status code of a fatal error (60_exceptions.md R97, 00_scope.md R12). -/
def FatalError.code : FatalError → StatusWord
  | .programTooLarge => 3
  | .controlStackOverflow => 4
  | .unbalancedBracket => 5

/-- `raise F(pc)`: taking a fatal error (60_exceptions.md R100). `pc` stays at the instruction that raised it, and
nothing else of the architectural state changes; the controller goes to DONE (10_state.md R35). -/
def State.raise (s : State) (f : FatalError) : State :=
  { s with phase := .faulted, status := f.code, ctl := .done }

/-! ### The hidden scanner registers -/

/-- The scanner registers as a forward skip leaves them (10_state.md R33, R35). -/
def State.setScanner (s : State) (scan sdepth : Nat) : State := { s with scan := scan, sdepth := sdepth }

end Sys2Proof.Machine
end

