-- ==== Sys2Proof/Machine/Operands.lean ====
section
/-! DEFINITION. The operands of the instructions. They are implicit (10_state.md R18): the data pointer and the
current cell. -/

namespace Sys2Proof.Machine

/-- The current cell: `cell = MemRead(dp, 1)` (10_state.md R23). -/
def State.cell (s : State) : Byte := Memory.read s.tape s.dp

/-- `MemWrite(dp, 1, v)` (10_state.md R23). -/
def State.setCell (s : State) (v : Byte) : State := { s with tape := Memory.write s.tape s.dp v }

/-- `dp <- v` (10_state.md R22). -/
def State.setDp (s : State) (v : Nat) : State := { s with dp := v }

/-- `(dp + 1) mod TAPE_SIZE` (40_pointer_cell.md R69). -/
def nextPtr (size p : Nat) : Nat := (p + 1) % size

/-- `(dp - 1) mod TAPE_SIZE` (40_pointer_cell.md R70), with one turn of the tape added so that no difference falls
below 0. -/
def prevPtr (size p : Nat) : Nat := (p + (size - 1)) % size

/-- `(cell + 1) mod 256` (40_pointer_cell.md R71). -/
def incByte (b : Byte) : Byte := b + 1

/-- `(cell - 1) mod 256` (40_pointer_cell.md R72). -/
def decByte (b : Byte) : Byte := b - 1

end Sys2Proof.Machine
end

