-- ==== Sys2Proof/Machine/ByteIO.lean ====
section
/-! DEFINITION. The stream instructions (42_io.md). In a step the stream transaction has completed (00_scope.md R15);
the holds before that are the controller's (Machine/Controller.lean). Neither instruction raises anything (R88). -/

namespace Sys2Proof.Machine

/-- The current cell as an answer to `,` leaves it; at end of input as EOF_POLICY says (42_io.md R86, R87). -/
def State.receive (s : State) (a : InAnswer) : State :=
  match a with
  | .byte b => s.setCell b
  | .eof =>
    match s.cfg.eofPolicy with
    | .keep => s
    | .zero => s.setCell 0

/-- OUT `.` (42_io.md R84). -/
def execOutput (s : State) : Host.Outcome State Fault Refusal := .next (s.outWrite s.cell).advance

/-- IN `,` (42_io.md R86). -/
def execInput (s : State) : Host.Outcome State Fault Refusal := .next (s.consume.receive s.inAnswer).advance

end Sys2Proof.Machine
end

