-- ==== Sys2Proof/Machine/HaltNop.lean ====
section
/-! DEFINITION. The terminator and the no-op bytes (43_halt_nop.md). -/

namespace Sys2Proof.Machine

/-- HALT, the terminator byte (43_halt_nop.md R89): `pc` stays at its index. -/
def execHalt (s : State) : Host.Outcome State Fault Refusal := .next s.halt

/-- NOP, any other byte (43_halt_nop.md R91). -/
def execNop (s : State) : Host.Outcome State Fault Refusal := .next s.advance

end Sys2Proof.Machine
end

