-- ==== Sys2Proof/Machine/Flags.lean ====
section
/-! DEFINITION. The engine has no flags (10_state.md R24). The one condition an instruction tests is computed from
the current cell when the instruction executes, and is stored nowhere. -/

namespace Sys2Proof.Machine

/-- `cell == 0`, the test of `[` and `]` (10_state.md R24). -/
def State.cellIsZero (s : State) : Bool := s.cell == 0

end Sys2Proof.Machine
end

