-- ==== Sys2Proof/Machine/Scanner.lean ====
section
/-! DEFINITION. The forward-skip scanner (41_loop_control.md R76). -/

namespace Sys2Proof.Machine

/-- The nesting depth after a scanned byte: one more at `[`, one less at `]` (41_loop_control.md R76). -/
def nestAfter (d : Nat) (b : Byte) : Nat :=
  d + (if b = Opcode.loopOpen then 1 else 0) - (if b = Opcode.loopClose then 1 else 0)

/-- `scan(i, d)` of 41_loop_control.md R76 over the bytes from index `i` to the end of the program. A terminator
counts as the end (D3). -/
def skipScan : List Byte → Nat → Nat → SkipResult
  | [], i, d => .runOff i d
  | b :: rest, i, d =>
    if b = Config.terminator then .runOff i d
    else if nestAfter d b = 0 then .found i
    else skipScan rest (i + 1) (nestAfter d b)

/-- `skip_match(p) = scan(p + 1, 1)` (41_loop_control.md R76). -/
def skipMatch (prog : List Byte) (p : Nat) : SkipResult := skipScan (prog.drop (p + 1)) (p + 1) 1

end Sys2Proof.Machine
end

