-- ==== Sys2Proof/Machine/LoopControl.lean ====
section
/-! DEFINITION. The loop instructions (41_loop_control.md). -/

namespace Sys2Proof.Machine

/-- The `[` with a zero cell: the forward skip, within the one step (41_loop_control.md R77, R78, 00_scope.md R15).
The scanner registers end as the controller of 10_state.md R35 leaves them: a match is met at depth 1, which the
completing cycle does not rewrite. -/
def skipLoop (s : State) : State :=
  match skipMatch s.prog s.pc with
  | .found m => (s.setScanner m 1).goto (m + 1)
  | .runOff e d => (s.setScanner e d).raise .unbalancedBracket

/-- The `[` with a nonzero cell: the loop is entered, unless the stack is full (41_loop_control.md R77,
60_exceptions.md R99). -/
def enterLoop (s : State) : State :=
  if s.cfg.stackCap ≤ s.depth then s.raise .controlStackOverflow else (s.push s.pc).advance

/-- OPEN `[` (41_loop_control.md R77). -/
def execLoopOpen (s : State) : Host.Outcome State Fault Refusal :=
  .next (if s.cellIsZero then skipLoop s else enterLoop s)

/-- CLOSE `]` (41_loop_control.md R79): an empty stack is `UnbalancedBracket` whatever the cell. -/
def execLoopClose (s : State) : Host.Outcome State Fault Refusal :=
  match s.top? with
  | none => .next (s.raise .unbalancedBracket)
  | some t => .next (if s.cellIsZero then s.pop.advance else s.goto (t + 1))

end Sys2Proof.Machine
end

