-- ==== Sys2Proof/Machine/PointerCell.lean ====
section
/-! DEFINITION. The data-pointer and cell instructions (40_pointer_cell.md). None of them raises anything. -/

namespace Sys2Proof.Machine

/-- RIGHT `>` (40_pointer_cell.md R69). -/
def execRight (s : State) : Host.Outcome State Fault Refusal := .next (s.setDp (nextPtr s.cfg.tapeSize s.dp)).advance

/-- LEFT `<` (40_pointer_cell.md R70). -/
def execLeft (s : State) : Host.Outcome State Fault Refusal := .next (s.setDp (prevPtr s.cfg.tapeSize s.dp)).advance

/-- INC `+` (40_pointer_cell.md R71). -/
def execInc (s : State) : Host.Outcome State Fault Refusal := .next (s.setCell (incByte s.cell)).advance

/-- DEC `-` (40_pointer_cell.md R72). -/
def execDec (s : State) : Host.Outcome State Fault Refusal := .next (s.setCell (decByte s.cell)).advance

end Sys2Proof.Machine
end

