-- ==== Sys2Proof/Machine/Fetch.lean ====
section
/-! DEFINITION. The start of a step: its checks in their order (60_exceptions.md R101), the fetch and the decode
(30_encoding.md R66). -/

namespace Sys2Proof.Machine

/-- What a step finds before it executes anything (30_encoding.md R66 steps 1 to 4; 10_state.md R29 for the gate). -/
def fetch (s : State) : Fetched :=
  match s.phase with
  | .halted => .ended
  | .faulted => .ended
  | .running =>
    if s.cfg.maxCodeSize < s.len then .tooLarge
    else if s.pc = s.len then .endOfBuffer
    else match s.progRead s.pc with
      | none => .outside
      | some b => .instr (decodeByte b)

/-- The state with the byte of a table word at `pc`, and everything else a fetch there needs: the engine running, the
controller in EXEC. -/
def placeTableWord (s : State) (nbits w : Nat) : State :=
  { s with prog := placeByte s.prog s.pc (tableByte nbits w), phase := .running, ctl := .exec }

end Sys2Proof.Machine
end

