-- ==== Sys2Proof/Machine/Step.lean ====
section
/-! DEFINITION. One architectural step of the engine (30_encoding.md R66, 00_scope.md R15). -/

namespace Sys2Proof.Machine

/-- One step. A run that has ended does not move: every later step leaves its state as it is, until reset
(10_state.md R29, R35 DONE; log entry 7). -/
def step (s : State) : Host.Outcome State Fault Refusal :=
  match fetch s with
  | .ended => .next s
  | .tooLarge => .next (s.raise .programTooLarge)
  | .endOfBuffer => .next s.halt
  | .outside => .fault .fetchOutsideProgram
  | .instr i => exec i s

/-- The state whose next step runs the instruction of a table word. It stands for the host's load of that byte
(20_memory.md R44; log entry 2). -/
def State.withFetchWord (s : State) (nbits w : Nat) : State := placeTableWord s nbits w

end Sys2Proof.Machine
end

