-- ==== Sys2Proof/Machine/Controller.lean ====
section
/-! DEFINITION. The cycle-level controller (10_state.md R34, R35) and the engine's ports (R31, 20_memory.md R42, R45,
R46). The step of Machine/Step.lean is the normative semantics (00_scope.md R15); this is the spec's refinement of it
(10_state.md R36), on the same state. -/

namespace Sys2Proof.Machine

/-- What the host has in place when it asserts `rst`: the program and the input of the run to come
(70_reset_and_hazards.md R114, R116). -/
structure Load where
  prog : List Byte
  inp : List Byte
  deriving DecidableEq, Repr

/-- What the host does in one cycle. Which byte an answer brings is not its choice here: it is the next one of `inp`,
or end of stream (20_memory.md R45). -/
structure Pins where
  /-- `rst`, with what is loaded; `none` is `rst` low. -/
  rst : Option Load
  /-- The host answers an input transaction in this cycle. -/
  inReady : Bool
  /-- `out_ready` (20_memory.md R46). -/
  outReady : Bool
  deriving DecidableEq, Repr

/-- The start of a forward skip (10_state.md R35, EXEC): `pc` is not yet changed. -/
def startSkip (s : State) : State := { s with scan := s.pc + 1, sdepth := 1, ctl := .skip }

/-- An instruction in EXEC (10_state.md R35): a skip and the two stream instructions only begin; any other completes
its step in this cycle. -/
def issue (i : Instr) (s : State) : Host.Outcome State Fault Refusal :=
  match i with
  | .loopOpen => if s.cellIsZero then .next (startSkip s) else exec .loopOpen s
  | .input => .next { s with ctl := .waitIn }
  | .output => .next { s with ctl := .waitOut }
  | .right => exec .right s
  | .left => exec .left s
  | .inc => exec .inc s
  | .dec => exec .dec s
  | .loopClose => exec .loopClose s
  | .halt => exec .halt s
  | .nop b => exec (.nop b) s

/-- A cycle in EXEC (10_state.md R35). -/
def cycleExec (s : State) : Host.Outcome State Fault Refusal :=
  match fetch s with
  | .ended => .next { s with ctl := .done }
  | .tooLarge => step s
  | .endOfBuffer => step s
  | .outside => step s
  | .instr i => issue i s

/-- A cycle in SKIP (10_state.md R35): one program byte is scanned. -/
def cycleSkip (s : State) : State :=
  match s.progRead s.scan with
  | none => s.raise .unbalancedBracket
  | some b =>
    if b = Config.terminator then s.raise .unbalancedBracket
    else if nestAfter s.sdepth b = 0 then s.goto (s.scan + 1)
    else s.setScanner (s.scan + 1) (nestAfter s.sdepth b)

/-- One `clk` cycle (10_state.md R35; `rst`: 70_reset_and_hazards.md R113, R114). -/
def cycle (p : Pins) (s : State) : Host.Outcome State Fault Refusal :=
  match p.rst with
  | some l => .next (State.resetWith s.cfg l.prog l.inp)
  | none =>
    match s.ctl with
    | .exec => cycleExec s
    | .skip => .next (cycleSkip s)
    | .waitIn => if p.inReady then execInput s else .next s
    | .waitOut => if p.outReady then execOutput s else .next s
    | .done => .next s

/-- The cycles of a sequence of pins, stopping at the first fault or refusal. -/
def cycles : List Pins → State → Host.Outcome State Fault Refusal
  | [], s => .next s
  | p :: ps, s =>
    match cycle p s with
    | .next t => cycles ps t
    | .fault r => .fault r
    | .refused r => .refused r

/-! ### The ports -/

/-- The two bits of `phase` (10_state.md R29). -/
def Phase.bits : Phase → BitVec 2
  | .running => 0
  | .halted => 1
  | .faulted => 2

/-- `done`: `phase != RUNNING` (10_state.md R31). -/
def State.done (s : State) : Bool := s.phase != .running

/-- The `phase` port (10_state.md R31). -/
def State.phasePort (s : State) : BitVec 2 := s.phase.bits

/-- The `status` port: valid when `done` is high, 0 otherwise (10_state.md R31). -/
def State.statusPort (s : State) : StatusWord := if s.done then s.status else 0

/-- What the loader drives on `prog_len`: the length, or all ones where the port cannot carry it (10_state.md R31). -/
def progLenPort (cfg : Config) (len : Nat) : BitVec cfg.progLenW :=
  if len < 2 ^ cfg.progLenW then BitVec.ofNat _ len else BitVec.allOnes _

/-- `prog_addr`: the program index the engine reads in this cycle, where it reads one (20_memory.md R42). -/
def State.progAddr (s : State) : Option Nat :=
  match s.ctl with
  | .exec => if s.phase = .running ∧ s.len ≤ s.cfg.maxCodeSize ∧ s.pc < s.len then some s.pc else none
  | .skip => if s.scan < s.len then some s.scan else none
  | .waitIn => none
  | .waitOut => none
  | .done => none

/-- `in_req` (20_memory.md R45). -/
def State.inReq (s : State) : Bool := s.ctl == .waitIn

/-- `in_valid` and `in_data`: the byte that the host's answer brings (20_memory.md R45). -/
def State.inByte (s : State) (p : Pins) : Option Byte :=
  if s.inReq && p.inReady then s.inp.head? else none

/-- `in_eof` (20_memory.md R45); never together with `in_valid`. -/
def State.inEof (s : State) (p : Pins) : Bool := s.inReq && p.inReady && s.inp.isEmpty

/-- `out_valid` and `out_data`: the current cell, steady throughout the wait (20_memory.md R46). -/
def State.outByte (s : State) : Option Byte := if s.ctl = .waitOut then some s.cell else none

end Sys2Proof.Machine
end

