-- ==== Sys2Proof/Safety.lean ====
section
/-! DEFINITION. The vocabulary of the claims: runs, the end of a run, bracket structure, and the invariants of a run
and of the controller. -/

namespace Sys2Proof.Machine

/-! ### Runs -/

/-- The state after `n` steps (30_encoding.md R67), stopping at the first fault or refusal. -/
def runFor : Nat → State → Host.Outcome State Fault Refusal
  | 0, s => .next s
  | n + 1, s =>
    match step s with
    | .next t => runFor n t
    | .fault r => .fault r
    | .refused r => .refused r

/-- `t` is a state of the run from `s`. -/
def Reaches (s t : State) : Prop := ∃ n, runFor n s = .next t

/-- The outcome of a run (43_halt_nop.md R94). -/
structure RunOutcome where
  phase : Phase
  status : StatusWord
  pc : Nat
  dp : Nat
  tape : List Host.Cell
  lstack : List Nat
  out : List Byte
  inp : List Byte
  deriving DecidableEq, Repr

/-- A run has ended at a state with `phase != RUNNING` (43_halt_nop.md R94); before that it has no outcome. -/
def State.outcome? (s : State) : Option RunOutcome :=
  match s.phase with
  | .running => none
  | .halted => some ⟨s.phase, s.status, s.pc, s.dp, s.tape, s.lstack, s.out, s.inp⟩
  | .faulted => some ⟨s.phase, s.status, s.pc, s.dp, s.tape, s.lstack, s.out, s.inp⟩

/-- The architectural state, the streams and the parameters of the run: the state with the hidden controller registers
(10_state.md R33, R34) put out of sight, so that two states may be compared up to them. -/
def State.arch (s : State) : State := { s with ctl := .exec, scan := 0, sdepth := 0 }

/-! ### Brackets -/

/-- The bytes `prog[a .. b-1]`. -/
def between (prog : List Byte) (a b : Nat) : List Byte := (prog.take b).drop a

/-- As many `[` as `]`. -/
def SameCount (l : List Byte) : Prop := l.count Opcode.loopOpen = l.count Opcode.loopClose

/-- As many `[` as `]`, and at least as many `[` as `]` in every prefix (41_loop_control.md R76(b)). -/
def BracketBalanced (l : List Byte) : Prop :=
  SameCount l ∧ ∀ k, (l.take k).count Opcode.loopClose ≤ (l.take k).count Opcode.loopOpen

/-- `t` is the bracket-count match of `q` (41_loop_control.md R82): the greatest `t < q` that holds a `[` and has as
many `[` as `]` between itself and `q`. -/
def IsMatchOf (prog : List Byte) (q t : Nat) : Prop :=
  t < q ∧ prog[t]? = some Opcode.loopOpen ∧ SameCount (between prog (t + 1) q) ∧
    ∀ u, t < u → u < q → prog[u]? = some Opcode.loopOpen → ¬ SameCount (between prog (u + 1) q)

/-! ### The invariant of a run -/

/-- The live entries, bottom first, and then `pc`: every entry is the index of a `[`, they rise strictly and lie below
`pc` (10_state.md R26), and the bytes from each to the next are balanced (the argument of 41_loop_control.md R82). -/
def Nested (prog : List Byte) (pc : Nat) : List Nat → Prop
  | [] => True
  | t :: rest =>
    prog[t]? = some Opcode.loopOpen ∧ t < rest.headD pc ∧ BracketBalanced (between prog (t + 1) (rest.headD pc)) ∧
      Nested prog pc rest

/-- Which status goes with which phase (10_state.md R30, 60_exceptions.md R97). -/
def statusAgrees (phase : Phase) (status : StatusWord) : Prop :=
  match phase with
  | .running => status = 0
  | .halted => status = 0
  | .faulted => ∃ f : FatalError, status = f.code

/-- What holds in every state of every run (10_state.md R21, R22, R25, R26, R30; 60_exceptions.md R98). -/
structure RunInv (s : State) : Prop where
  pcInProgram : s.pc ≤ s.len
  dpOnTape : s.dp < s.cfg.tapeSize
  tapeCanonical : Memory.wf s.cfg.tapeSize s.tape
  depthBounded : s.depth ≤ s.cfg.stackCap
  nested : Nested s.prog s.pc s.lstack
  statusRight : statusAgrees s.phase s.status
  /-- A program that is too large never leaves its start. -/
  oversizeAtStart : s.cfg.maxCodeSize < s.len → s.pc = 0 ∧ s.lstack = []

/-! ### The invariant of the controller -/

/-- The hidden registers agree with the architectural state (10_state.md R33, R35): between instructions and in a
wait with the instruction at `pc`, and in a skip with the part of the scan still to be done. -/
def InFlight (s : State) : Prop :=
  match s.ctl with
  | .exec => s.phase = .running
  | .skip =>
    fetch s = .instr .loopOpen ∧ s.cell = 0 ∧ s.pc < s.scan ∧ s.scan ≤ s.len ∧ 1 ≤ s.sdepth ∧ s.sdepth ≤ s.scan ∧
      skipScan (s.prog.drop s.scan) s.scan s.sdepth = skipMatch s.prog s.pc
  | .waitIn => fetch s = .instr .input
  | .waitOut => fetch s = .instr .output
  | .done => s.phase ≠ .running

/-- The controller stands between instructions, or has stopped. -/
def State.atBoundary (s : State) : Prop := s.ctl = .exec ∨ s.ctl = .done

/-- A cycle in which the host neither resets the engine nor answers a transaction. -/
def Pins.idle : Pins := ⟨none, false, false⟩

/-- A cycle in which the host answers whatever the engine asks. -/
def Pins.ready : Pins := ⟨none, true, true⟩

/-! ### Loops -/

/-- One pass through the body of the loop whose `[` is at `p` and whose `]` is at `q`, entered over the stack `base`: a
run from just after the `[` that comes to the `]` with the loop's entry on top, as at its start
(41_loop_control.md R80). -/
def BodyPass (p q : Nat) (base : List Nat) (s t : State) : Prop :=
  s.pc = p + 1 ∧ s.lstack = base ++ [p] ∧ Reaches s t ∧ t.pc = q ∧ t.lstack = base ++ [p] ∧ t.phase = .running

/-- `while (cell != 0) { body }` from a state just after the `[` (41_loop_control.md R80): passes through the body, the
cell nonzero at the `]` after each but the last, and zero after that one. Each pass but the first starts where the
`]` before it went back to. -/
inductive WhilePasses (p q : Nat) (base : List Nat) : State → State → Prop where
  | last (s t : State) : BodyPass p q base s t → t.cell = 0 → WhilePasses p q base s t
  | again (s t u : State) : BodyPass p q base s t → t.cell ≠ 0 → WhilePasses p q base (t.goto (p + 1)) u →
      WhilePasses p q base s u

end Sys2Proof.Machine
end

