-- ==== Sys2Proof/Certificates/Slice0/Obligations.lean ====
section
/-! DEFINITION. The statements for the provers, in the order of the spec's files. Each names the rule it rests on.
`State.arch` puts the hidden controller registers out of sight: a statement that compares two states through it says
everything about the architectural state, the streams, the program and the configuration, and nothing about the
registers no rule gives a value outside a skip (10_state.md R33). -/

open Sys2Proof Sys2Proof.Machine

/-! ### Parameters, ports and reset -/

/-- R9: PC_W holds every value from 0 to MAX_CODESIZE, and no smaller width does; `prog_len` is one bit wider. -/
def Obligations.PcWidthIsLeast : Prop :=
  ∀ cfg : Config, (∀ v ≤ cfg.maxCodeSize, v < 2 ^ cfg.pcW) ∧
    (∀ w, (∀ v ≤ cfg.maxCodeSize, v < 2 ^ w) → cfg.pcW ≤ w) ∧ cfg.progLenW = cfg.pcW + 1

/-- R31 (`prog_len`), C10: what the port shows is above MAX_CODESIZE exactly when the program's length is, for every
value of the parameter, and a length that is not too large is shown as it is. -/
def Obligations.ProgLenPortShowsOversize : Prop :=
  ∀ (cfg : Config) (len : Nat),
    (cfg.maxCodeSize < (progLenPort cfg len).toNat ↔ cfg.maxCodeSize < len) ∧
    (len ≤ cfg.maxCodeSize → (progLenPort cfg len).toNat = len)

/-- R31 (`phase`, `done`, `status`): the three outputs, and that in a state of a run the status port is the register. -/
def Obligations.StatusPortsShowTheRun : Prop :=
  ∀ s : State,
    (s.done = true ↔ s.phase ≠ .running) ∧ (s.done = false → s.statusPort = 0) ∧
    (s.done = true → s.statusPort = s.status) ∧ s.phasePort ≠ 3 ∧
    (s.phasePort = 0 ↔ s.phase = .running) ∧ (s.phasePort = 1 ↔ s.phase = .halted) ∧
    (s.phasePort = 2 ↔ s.phase = .faulted) ∧ (RunInv s → s.statusPort = s.status)

/-- R42: the engine drives `prog_addr` only with values below `len`: with `pc` in EXEC and with `scan` in SKIP. It
drives it in exactly the cycles that fetch an instruction or scan a byte, and the byte there is all that a cycle sees of
the program but its length: another program of that length with the same byte there does the same. -/
def Obligations.ProgramReadsStayInside : Prop :=
  (∀ (s : State) (a : Nat), s.progAddr = some a →
    a < s.len ∧ ((s.ctl = .exec ∧ a = s.pc) ∨ (s.ctl = .skip ∧ a = s.scan))) ∧
  (∀ s : State, (s.ctl = .exec → (s.progAddr = some s.pc ↔ ∃ i, fetch s = .instr i)) ∧
    (s.ctl = .skip → (s.progAddr = some s.scan ↔ s.scan < s.len))) ∧
  ∀ (p : Pins) (s t : State) (prog' : List Byte), p.rst = none → prog'.length = s.len →
    (∀ a, s.progAddr = some a → prog'[a]? = s.prog[a]?) → cycle p s = .next t →
      cycle p { s with prog := prog' } = .next { t with prog := prog' }

/-- R37: the values the spec gives for reset, for every build, program and input. `scan`, `sdepth` and the dead stack
entries have none. -/
def Obligations.ResetValues : Prop :=
  ∀ (cfg : Config) (prog inp : List Byte),
    let s := State.resetWith cfg prog inp
    s.pc = 0 ∧ s.dp = 0 ∧ (∀ a, Memory.read s.tape a = 0) ∧ s.depth = 0 ∧ s.phase = .running ∧ s.status = 0 ∧
      s.ctl = .exec ∧ s.out = [] ∧ s.inp = inp ∧ s.prog = prog ∧ s.cfg = cfg

/-- R8, R37: `State.reset` is the reset state of some build the spec allows, with nothing loaded and no input. That
nothing is loaded, and which build it is, is the model's choice (log entries 1 and 2). -/
def Obligations.ResetStateIsOfALegalBuild : Prop :=
  ∃ cfg : Config, cfg.wf ∧ State.reset = State.resetWith cfg [] []

/-- R114: a cycle with `rst` high, in whatever state it comes, leaves the reset state of the new run, and nothing of
the run it discards but the build: two engines of one build, reset alike, are alike. -/
def Obligations.ResetDiscardsTheRun : Prop :=
  ∀ (p : Pins) (l : Load) (s s' : State), p.rst = some l → s.cfg = s'.cfg →
    ∃ t t', cycle p s = .next t ∧ cycle p s' = .next t' ∧ t.arch = t'.arch ∧
      t.arch = (State.resetWith s.cfg l.prog l.inp).arch ∧ t.ctl = .exec ∧ t'.ctl = .exec

/-! ### Decoding -/

/-- R61: the words of the opcode map, written out bit by bit, read through the host's numbering of table words. -/
def Obligations.OpcodeWordsDecode : Prop :=
  decodeTableWord 8 0b00111110 = some .right ∧ decodeTableWord 8 0b00111100 = some .left ∧
  decodeTableWord 8 0b00101011 = some .inc ∧ decodeTableWord 8 0b00101101 = some .dec ∧
  decodeTableWord 8 0b01011011 = some .loopOpen ∧ decodeTableWord 8 0b01011101 = some .loopClose ∧
  decodeTableWord 8 0b00101110 = some .output ∧ decodeTableWord 8 0b00101100 = some .input ∧
  decodeTableWord 8 0b00000000 = some .halt ∧ decodeTableWord 8 0b01100001 = some (.nop 0x61)

/-- R62: the decode of each of the 256 bytes, with the byte values of the rule. -/
def Obligations.DecodeOfEveryByte : Prop :=
  ∀ b : Byte,
    (decodeByte b = .right ↔ b = 0x3E) ∧ (decodeByte b = .left ↔ b = 0x3C) ∧
    (decodeByte b = .inc ↔ b = 0x2B) ∧ (decodeByte b = .dec ↔ b = 0x2D) ∧
    (decodeByte b = .loopOpen ↔ b = 0x5B) ∧ (decodeByte b = .loopClose ↔ b = 0x5D) ∧
    (decodeByte b = .output ↔ b = 0x2E) ∧ (decodeByte b = .input ↔ b = 0x2C) ∧
    (decodeByte b = .halt ↔ b = 0x00) ∧
    ((∃ c, decodeByte b = .nop c) ↔
      b ≠ 0x3E ∧ b ≠ 0x3C ∧ b ≠ 0x2B ∧ b ≠ 0x2D ∧ b ≠ 0x5B ∧ b ≠ 0x5D ∧ b ≠ 0x2E ∧ b ≠ 0x2C ∧ b ≠ 0x00)

/-- opcode_table.json: every byte belongs to the row of the instruction it decodes to, and to the row of no other
well-formed instruction. -/
def Obligations.OpcodeRowsPartitionBytes : Prop :=
  ∀ b : Byte, (decodeByte b).row.holds b = true ∧
    ∀ i : Instr, i.wellFormed = true → i.row.holds b = true → i.row = (decodeByte b).row

/-- R65, R62: the program text is the machine code. Text and instructions determine each other: every sequence of
well-formed instructions is read back from its text, every byte sequence is the text of the well-formed instructions
read from it, and an instruction is read off the front of any bytes that follow it. -/
def Obligations.ProgramTextRoundTrip : Prop :=
  (∀ p : List Instr, (∀ i ∈ p, i.wellFormed = true) →
    disassemble (assemble p) = p ∧ (assemble p).length = p.length) ∧
  (∀ bytes : List Byte, assemble (disassemble bytes) = bytes ∧ ∀ i ∈ disassemble bytes, i.wellFormed = true) ∧
  (∀ (i : Instr) (rest : List Byte), i.wellFormed = true → decode (encode i ++ rest) = some (i, rest))

/-! ### The step -/

/-- R66, with 60_exceptions.md R101: the step runs the instruction that the byte at `pc` decodes to, on the state as it
is, with nothing done around it: `exec` itself moves `pc`. -/
def Obligations.StepRunsDecodedInstruction : Prop :=
  ∀ (s : State) (b : Byte), s.phase = .running → s.len ≤ s.cfg.maxCodeSize → s.prog[s.pc]? = some b →
    step s = exec (decodeByte b) s

/-- R101: the checks of a step, in their order: a program too large, then the end of the buffer, then the instruction
at `pc`. -/
def Obligations.StepChecksInOrder : Prop :=
  ∀ s : State, s.phase = .running →
    (s.cfg.maxCodeSize < s.len →
      ∃ t, step s = .next t ∧ t.arch = ({ s with phase := .faulted, status := 3 } : State).arch) ∧
    (s.len ≤ s.cfg.maxCodeSize → s.pc = s.len →
      ∃ t, step s = .next t ∧ t.arch = ({ s with phase := .halted, status := 0 } : State).arch) ∧
    (s.len ≤ s.cfg.maxCodeSize → s.pc < s.len →
      ∃ b, s.prog[s.pc]? = some b ∧ step s = exec (decodeByte b) s)

/-- A word placed where the step fetches is the instruction the step runs (the host's question, for every state whose
program the engine accepts and whose `pc` it can hold an instruction at). -/
def Obligations.PlacedWordRuns : Prop :=
  ∀ (s : State) (w : Nat), s.len ≤ s.cfg.maxCodeSize → s.pc < s.cfg.maxCodeSize →
    ∃ i, decodeTableWord 8 w = some i ∧ step (s.withFetchWord 8 w) = exec i (s.withFetchWord 8 w)

/-- R96, R42: no instruction stops the machine in any state, and no step does while `pc` is inside the program or at
its end. -/
def Obligations.NothingStopsTheMachine : Prop :=
  (∀ (i : Instr) (s : State), ∃ t, exec i s = .next t) ∧
  ∀ s : State, s.pc ≤ s.len → ∃ t, step s = .next t

/-- R20: the next `pc` of every step of a running engine. After a fatal error, whichever raised it, it is unchanged. -/
def Obligations.NextPcOfEveryStep : Prop :=
  ∀ s t : State, s.phase = .running → step s = .next t →
    t.pc = if t.phase = .faulted then s.pc else
      match fetch s with
      | .ended => s.pc
      | .tooLarge => s.pc
      | .endOfBuffer => s.pc
      | .outside => s.pc
      | .instr i =>
        match i with
        | .right => s.pc + 1
        | .left => s.pc + 1
        | .inc => s.pc + 1
        | .dec => s.pc + 1
        | .output => s.pc + 1
        | .input => s.pc + 1
        | .nop _ => s.pc + 1
        | .halt => s.pc
        | .loopOpen =>
          if s.cell ≠ 0 then s.pc + 1 else
            match skipMatch s.prog s.pc with
            | .found m => m + 1
            | .runOff _ _ => s.pc
        | .loopClose => if s.cell ≠ 0 then s.lstack.getLastD 0 + 1 else s.pc + 1

/-- R38, the W entries: each piece of state changes only under the instructions the table names, every tape cell but
the current one is unchanged, and `phase` and `status` change only when the run ends. -/
def Obligations.OnlyNamedInstructionsWrite : Prop :=
  ∀ (i : Instr) (s t : State), exec i s = .next t →
    (i ≠ .right → i ≠ .left → t.dp = s.dp) ∧
    (i ≠ .inc → i ≠ .dec → i ≠ .input → t.tape = s.tape) ∧
    (∀ a, a ≠ s.dp → Memory.read t.tape a = Memory.read s.tape a) ∧
    (i ≠ .loopOpen → i ≠ .loopClose → t.lstack = s.lstack) ∧
    (i ≠ .input → t.inp = s.inp) ∧ (i ≠ .output → t.out = s.out) ∧
    t.prog = s.prog ∧ t.cfg = s.cfg ∧
    (i ≠ .halt → i ≠ .loopOpen → i ≠ .loopClose → t.phase = s.phase ∧ t.status = s.status) ∧
    (t.phase = s.phase ∧ t.status = s.status ∨ t.phase = .halted ∨ t.phase = .faulted)

/-- R41 ("The only address an instruction ever gives is `dp`"), R38: no instruction sees any cell but the current one.
Change the other cells at will, and everything but those cells comes out as before; a cell that held the same value
before still does. -/
def Obligations.OnlyTheCurrentCellIsSeen : Prop :=
  ∀ (i : Instr) (s : State) (tape' : List Host.Cell), Memory.read tape' s.dp = s.cell →
    ∃ t t', exec i s = .next t ∧ exec i { s with tape := tape' } = .next t' ∧
      ({ t with tape := [] } : State) = { t' with tape := [] } ∧
      ∀ a, Memory.read tape' a = Memory.read s.tape a → Memory.read t'.tape a = Memory.read t.tape a

/-- R40, R57: neither a step nor a cycle without reset changes the program, and neither changes the build. -/
def Obligations.ProgramIsImmutable : Prop :=
  (∀ s t : State, step s = .next t → t.prog = s.prog ∧ t.cfg = s.cfg) ∧
  ∀ (p : Pins) (s t : State), p.rst = none → cycle p s = .next t → t.prog = s.prog ∧ t.cfg = s.cfg

/-- R54, R45, R46: a step takes at most one byte off the front of the input and adds at most one at the end of the
output, never both; so input at its end stays at its end, and the output keeps everything written before. -/
def Obligations.StreamsMoveInOrder : Prop :=
  ∀ s t : State, step s = .next t →
    (t.inp = s.inp ∨ (∃ b, s.inp = b :: t.inp) ∧ t.out = s.out) ∧
    (t.out = s.out ∨ (∃ b, t.out = s.out ++ [b]) ∧ t.inp = s.inp)

/-! ### The data pointer and the cell -/

/-- R69, R70: `>` and `<` move `dp` modulo TAPE_SIZE, advance `pc`, and do nothing else, in every state. That the tape
has a cell at all is all that `<` asks. -/
def Obligations.PointerMovesWrap : Prop :=
  decodeByte 0x3E = .right ∧ decodeByte 0x3C = .left ∧ ∀ s : State,
    (∃ t, exec .right s = .next t ∧ t.arch = ({ s with dp := t.dp, pc := s.pc + 1 } : State).arch ∧
      t.dp = (s.dp + 1) % s.cfg.tapeSize) ∧
    (0 < s.cfg.tapeSize → ∃ t, exec .left s = .next t ∧
      t.arch = ({ s with dp := t.dp, pc := s.pc + 1 } : State).arch ∧
      (t.dp : Int) = ((s.dp : Int) - 1) % s.cfg.tapeSize)

/-- R71, R72: `+` and `-` change the current cell modulo 256, advance `pc`, and do nothing else: no other cell, and
nothing but the tape and `pc`. -/
def Obligations.CellArithmeticWraps : Prop :=
  decodeByte 0x2B = .inc ∧ decodeByte 0x2D = .dec ∧ ∀ s : State,
    (∃ t, exec .inc s = .next t ∧ t.arch = ({ s with tape := t.tape, pc := s.pc + 1 } : State).arch ∧
      (Memory.read t.tape s.dp).toNat = ((Memory.read s.tape s.dp).toNat + 1) % 256 ∧
      ∀ a, a ≠ s.dp → Memory.read t.tape a = Memory.read s.tape a) ∧
    (∃ t, exec .dec s = .next t ∧ t.arch = ({ s with tape := t.tape, pc := s.pc + 1 } : State).arch ∧
      ((Memory.read t.tape s.dp).toNat : Int) = ((Memory.read s.tape s.dp).toNat - 1 : Int) % 256 ∧
      ∀ a, a ≠ s.dp → Memory.read t.tape a = Memory.read s.tape a)

/-- R74, both laws, of the running engine. Where the program from `pc` on begins with instructions that are all `>` or
`<`, as many steps as there are move `dp` by their net count modulo TAPE_SIZE, move `pc` past them and do nothing else;
where they are all `+` or `-`, the same of the current cell modulo 256. Their order plays no part. -/
def Obligations.NetDisplacementLaws : Prop :=
  (∀ (is : List Instr) (s : State) (rest : List Byte), (∀ i ∈ is, i = .right ∨ i = .left) → s.phase = .running →
    s.dp < s.cfg.tapeSize → s.len ≤ s.cfg.maxCodeSize → s.prog.drop s.pc = assemble is ++ rest →
    ∃ t, runFor is.length s = .next t ∧
      t.arch = ({ s with dp := t.dp, pc := s.pc + is.length } : State).arch ∧
      (t.dp : Int) = ((s.dp : Int) + is.count .right - is.count .left) % s.cfg.tapeSize) ∧
  (∀ (is : List Instr) (s : State) (rest : List Byte), (∀ i ∈ is, i = .inc ∨ i = .dec) → s.phase = .running →
    s.len ≤ s.cfg.maxCodeSize → s.prog.drop s.pc = assemble is ++ rest →
    ∃ t, runFor is.length s = .next t ∧
      t.arch = ({ s with tape := t.tape, pc := s.pc + is.length } : State).arch ∧
      ((Memory.read t.tape s.dp).toNat : Int) =
        ((Memory.read s.tape s.dp).toNat + is.count .inc - is.count .dec : Int) % 256 ∧
      ∀ a, a ≠ s.dp → Memory.read t.tape a = Memory.read s.tape a)

/-! ### Loops -/

/-- R76 (a), (b): the skip from `p` finds `m` exactly when `m` holds a `]` beyond `p` such that the bytes between hold
no terminator and are balanced. -/
def Obligations.SkipFindsExactlyTheMatch : Prop :=
  ∀ (prog : List Byte) (p m : Nat), skipMatch prog p = .found m ↔
    p < m ∧ m < prog.length ∧ prog[m]? = some 0x5D ∧ (0x00 : Byte) ∉ between prog (p + 1) m ∧
      BracketBalanced (between prog (p + 1) m)

/-- R76 (a), (d): a skip that runs off has scanned to the end of the program or to a terminator, meeting no terminator
before; its depth there is 1 more than the surplus of `[` over `]`, never 0 on the way, and never above `len`. -/
def Obligations.SkipRunsOffOnlyAtTheEnd : Prop :=
  ∀ (prog : List Byte) (p e d : Nat), p < prog.length → skipMatch prog p = .runOff e d →
    p < e ∧ e ≤ prog.length ∧ (e = prog.length ∨ prog[e]? = some 0x00) ∧
      (0x00 : Byte) ∉ between prog (p + 1) e ∧ d ≤ prog.length ∧
      d + (between prog (p + 1) e).count 0x5D = 1 + (between prog (p + 1) e).count 0x5B ∧
      ∀ k, ((between prog (p + 1) e).take k).count 0x5D ≤ ((between prog (p + 1) e).take k).count 0x5B

/-- R77: `[` in each of its cases: with a zero cell past the match, or `UnbalancedBracket`; with a nonzero cell a push
of its own position, or `ControlStackOverflow` at STACK_CAP entries. Nothing else changes in any of them. -/
def Obligations.OpenEntersOrSkips : Prop :=
  decodeByte 0x5B = .loopOpen ∧ ∀ s : State,
    (s.cell = 0 → ∀ m, skipMatch s.prog s.pc = .found m →
      ∃ t, exec .loopOpen s = .next t ∧ t.arch = ({ s with pc := m + 1 } : State).arch) ∧
    (s.cell = 0 → ∀ e d, skipMatch s.prog s.pc = .runOff e d →
      ∃ t, exec .loopOpen s = .next t ∧ t.arch = ({ s with phase := .faulted, status := 5 } : State).arch) ∧
    (s.cell ≠ 0 → s.depth < s.cfg.stackCap →
      ∃ t, exec .loopOpen s = .next t ∧
        t.arch = ({ s with lstack := s.lstack ++ [s.pc], pc := s.pc + 1 } : State).arch) ∧
    (s.cell ≠ 0 → s.depth = s.cfg.stackCap →
      ∃ t, exec .loopOpen s = .next t ∧ t.arch = ({ s with phase := .faulted, status := 4 } : State).arch)

/-- R78: a skip puts `pc` one past the `]` it lands on, in one step, with the stack and every cell as they were: that
`]` neither pops nor tests. -/
def Obligations.LandedCloseIsNotExecuted : Prop :=
  ∀ (s : State) (m : Nat), fetch s = .instr .loopOpen → s.cell = 0 → skipMatch s.prog s.pc = .found m →
    s.prog[m]? = some 0x5D ∧
    ∃ t, step s = .next t ∧ t.pc = m + 1 ∧ t.lstack = s.lstack ∧ t.tape = s.tape ∧ t.phase = .running

/-- R79: `]` in each of its cases: `UnbalancedBracket` on an empty stack whatever the cell; else back to one past the
top entry, without a pop, while the cell is nonzero; else a pop and on. Nothing else changes in any of them. -/
def Obligations.CloseLoopsOrExits : Prop :=
  decodeByte 0x5D = .loopClose ∧ ∀ s : State,
    (s.depth = 0 →
      ∃ t, exec .loopClose s = .next t ∧ t.arch = ({ s with phase := .faulted, status := 5 } : State).arch) ∧
    ∀ (base : List Nat) (p : Nat), s.lstack = base ++ [p] →
      (s.cell ≠ 0 → ∃ t, exec .loopClose s = .next t ∧ t.arch = ({ s with pc := p + 1 } : State).arch) ∧
      (s.cell = 0 → ∃ t, exec .loopClose s = .next t ∧
        t.arch = ({ s with lstack := base, pc := s.pc + 1 } : State).arch)

/-- R80: the loop law. A `[` at `p` whose match is at `q`, with room on the stack: with a zero cell the body runs zero
times, in one step; with a nonzero cell, if the passes of `while (cell != 0) { body }` lead to `u`, the run leads to
`u` past the loop, over the stack it started from. -/
def Obligations.LoopRunsAsWhile : Prop :=
  ∀ (s : State) (q : Nat), fetch s = .instr .loopOpen → s.depth < s.cfg.stackCap → skipMatch s.prog s.pc = .found q →
    (s.cell = 0 → ∃ t, step s = .next t ∧ t.arch = ({ s with pc := q + 1 } : State).arch) ∧
    (s.cell ≠ 0 → ∀ u, WhilePasses s.pc q s.lstack (s.push s.pc).advance u →
      ∃ t, Reaches s t ∧ t.arch = ({ u with lstack := s.lstack, pc := q + 1 } : State).arch)

/-- R93: a `]` that jumps to itself on a nonzero cell does so for ever: the run never ends, and no step faults. -/
def Obligations.SelfLoopNeverEnds : Prop :=
  ∀ (s : State) (base : List Nat) (p : Nat), fetch s = .instr .loopClose → s.lstack = base ++ [p] →
    s.pc = p + 1 → s.cell ≠ 0 → ∀ n, ∃ t, runFor n s = .next t ∧ t.arch = s.arch

/-! ### The streams -/

/-- R84: `.` appends the current cell to the output, whatever its value, advances `pc` and does nothing else. -/
def Obligations.OutputAppendsTheCell : Prop :=
  decodeByte 0x2E = .output ∧ ∀ s : State, ∃ t, exec .output s = .next t ∧
    t.arch = ({ s with out := s.out ++ [Memory.read s.tape s.dp], pc := s.pc + 1 } : State).arch

/-- R86, R87: `,` stores the next input byte, 0 like any other, in the current cell and nowhere else; at end of input
the cell keeps its value under KEEP and becomes 0 under ZERO. `pc` advances in each case. -/
def Obligations.InputFillsTheCell : Prop :=
  decodeByte 0x2C = .input ∧ ∀ s : State,
    (∀ b rest, s.inp = b :: rest → ∃ t, exec .input s = .next t ∧
      t.arch = ({ s with inp := rest, tape := t.tape, pc := s.pc + 1 } : State).arch ∧
      Memory.read t.tape s.dp = b ∧ ∀ a, a ≠ s.dp → Memory.read t.tape a = Memory.read s.tape a) ∧
    (s.inp = [] → s.cfg.eofPolicy = .keep → ∃ t, exec .input s = .next t ∧
      t.arch = ({ s with pc := s.pc + 1 } : State).arch) ∧
    (s.inp = [] → s.cfg.eofPolicy = .zero → ∃ t, exec .input s = .next t ∧
      t.arch = ({ s with tape := t.tape, pc := s.pc + 1 } : State).arch ∧
      Memory.read t.tape s.dp = 0 ∧ ∀ a, a ≠ s.dp → Memory.read t.tape a = Memory.read s.tape a)

/-- R118 ("A `,` followed at once by `.` writes the byte just read"): two steps echo any byte. -/
def Obligations.EchoWritesTheByteRead : Prop :=
  ∀ (s : State) (b : Byte) (rest : List Byte), s.phase = .running → s.len ≤ s.cfg.maxCodeSize →
    s.prog[s.pc]? = some 0x2C → s.prog[s.pc + 1]? = some 0x2E → s.inp = b :: rest →
    ∃ t, runFor 2 s = .next t ∧ t.pc = s.pc + 2 ∧ t.inp = rest ∧ t.out = s.out ++ [b] ∧
      Memory.read t.tape s.dp = b

/-! ### The end of a run -/

/-- R89, R92: the terminator halts with status 0 and leaves everything else, `pc` at its own index. -/
def Obligations.TerminatorHalts : Prop :=
  decodeByte 0x00 = .halt ∧ ∀ s : State, ∃ t, exec .halt s = .next t ∧
    t.arch = ({ s with phase := .halted, status := 0 } : State).arch ∧ t.ctl = .done

/-- R91: a NOP advances `pc` and does nothing else, whichever of the 247 bytes it is. -/
def Obligations.NopOnlyAdvances : Prop :=
  ∀ (b : Byte) (s : State), (Instr.nop b).wellFormed = true →
    decodeByte b = .nop b ∧ ∃ t, exec (.nop b) s = .next t ∧ t.arch = ({ s with pc := s.pc + 1 } : State).arch

/-- R90, R83(c): at the end of the buffer the run halts with status OK, whatever is still on the stack, with no byte
read and everything else as it was. -/
def Obligations.EndOfBufferHalts : Prop :=
  ∀ s : State, s.phase = .running → s.len ≤ s.cfg.maxCodeSize → s.pc = s.len →
    s.prog[s.pc]? = none ∧
    ∃ t, step s = .next t ∧ t.arch = ({ s with phase := .halted, status := 0 } : State).arch

/-- R97, R12: the codes of the three fatal errors, which differ from each other and from OK. -/
def Obligations.StatusCodesAreDistinct : Prop :=
  FatalError.programTooLarge.code = 3 ∧ FatalError.controlStackOverflow.code = 4 ∧
    FatalError.unbalancedBracket.code = 5 ∧ ∀ f g : FatalError, f.code ≠ 0 ∧ (f.code = g.code → f = g)

/-- R100: a step that ends in a fatal error changes `phase` and `status` and nothing else of the architectural state;
the status is the code of one of the three errors the engine raises. -/
def Obligations.FatalErrorsArePrecise : Prop :=
  ∀ s t : State, s.phase = .running → step s = .next t → t.phase = .faulted →
    t.arch = ({ s with phase := .faulted, status := t.status } : State).arch ∧ t.ctl = .done ∧
      (t.status = 3 ∨ t.status = 4 ∨ t.status = 5)

/-- R99, R98, R96: in a state with at most STACK_CAP live entries, a step raises each fatal error exactly when its cause is
there, and no other. -/
def Obligations.FatalErrorsHaveTheirCauses : Prop :=
  ∀ s t : State, s.phase = .running → s.depth ≤ s.cfg.stackCap → step s = .next t →
    (t.phase = .faulted ∧ t.status = 3 ↔ s.cfg.maxCodeSize < s.len) ∧
    (t.phase = .faulted ∧ t.status = 4 ↔ fetch s = .instr .loopOpen ∧ s.cell ≠ 0 ∧ s.depth = s.cfg.stackCap) ∧
    (t.phase = .faulted ∧ t.status = 5 ↔
      fetch s = .instr .loopClose ∧ s.depth = 0 ∨
      fetch s = .instr .loopOpen ∧ s.cell = 0 ∧ ∃ e d, skipMatch s.prog s.pc = .runOff e d)

/-- R29, R102: once a run has ended, no cycles without reset change its state, and it has an outcome with its phase and
status. The spec takes no step there; that the step, a function of every state, answers the same state is the model's
choice (log entry 7), and on it rests the clause about any number of steps. -/
def Obligations.EndedRunIsFrozen : Prop :=
  ∀ s : State, s.phase ≠ .running →
    (∀ n, runFor n s = .next s) ∧
    (InFlight s → ∀ ps : List Pins, (∀ p ∈ ps, p.rst = none) → cycles ps s = .next s) ∧
    ∃ o, s.outcome? = some o ∧ o.phase = s.phase ∧ o.status = s.status

/-! ### The invariant of a run -/

/-- The invariant holds right after reset, for every legal build, program and input (10_state.md R37). -/
def Obligations.RunInvAtReset : Prop :=
  ∀ (cfg : Config) (prog inp : List Byte), cfg.wf → RunInv (State.resetWith cfg prog inp)

/-- R21, R22, R25, R26, R30, R82: every step from every state that meets the invariant leads to one that does. -/
def Obligations.RunInvKeptByEveryStep : Prop :=
  ∀ s t : State, RunInv s → step s = .next t → RunInv t

/-- R67, R21, R52: from reset, every program on every legal build and input runs for every number of steps without a
stop, in states that meet the invariant. That the steps go on after the run has ended, without moving it, is the
model's choice (log entry 7). -/
def Obligations.EveryRunGoesOnInside : Prop :=
  ∀ (cfg : Config) (prog inp : List Byte) (n : Nat), cfg.wf →
    ∃ t, runFor n (State.resetWith cfg prog inp) = .next t ∧ RunInv t ∧ t.prog = prog ∧ t.cfg = cfg

/-- R26: under the invariant every live entry is the index of a `[`, the entries rise strictly, and all lie below
`pc`. -/
def Obligations.LiveEntriesPointAtOpens : Prop :=
  ∀ s : State, RunInv s →
    s.lstack.Pairwise (· < ·) ∧ ∀ t ∈ s.lstack, t < s.pc ∧ t < s.len ∧ s.prog[t]? = some 0x5B

/-- R9, R21, R22, R25: under the invariant `pc` and every live entry fit in PC_W bits, `dp` in DP_W bits, and the depth
in DEPTH_W bits. -/
def Obligations.PositionsFitTheirWidth : Prop :=
  ∀ s : State, RunInv s →
    s.pc ≤ s.cfg.maxCodeSize ∧ s.pc < 2 ^ s.cfg.pcW ∧ (∀ t ∈ s.lstack, t < 2 ^ s.cfg.pcW) ∧
      s.dp < s.cfg.tapeSize ∧ s.dp < 2 ^ s.cfg.dpW ∧ s.depth ≤ s.cfg.stackCap ∧ s.depth < 2 ^ s.cfg.depthW

/-- R82: the top entry is the bracket-count match of `pc`, so that a `]` goes back to just after the `[` it matches: in
every state that meets the invariant, and so in every run of a legal build from reset, for any program, balanced or
not. -/
def Obligations.StackTopIsTheMatch : Prop :=
  (∀ (s : State) (base : List Nat) (p : Nat), RunInv s → s.lstack = base ++ [p] → IsMatchOf s.prog s.pc p) ∧
  ∀ (cfg : Config) (prog inp : List Byte) (n : Nat) (t : State) (base : List Nat) (p : Nat), cfg.wf →
    runFor n (State.resetWith cfg prog inp) = .next t → t.lstack = base ++ [p] → IsMatchOf prog t.pc p

/-! ### The cycle-level controller -/

/-- The hidden registers agree with the architectural state right after reset (10_state.md R37). -/
def Obligations.ControllerReadyAtReset : Prop :=
  ∀ (cfg : Config) (prog inp : List Byte), InFlight (State.resetWith cfg prog inp)

/-- R36, one cycle: from a state in which the hidden registers agree with the architectural state, a cycle without
reset keeps them so, and either completes the step (the state is the step's) or changes nothing but hidden registers
and leaves the step still to come. R36 speaks of the architectural state; that the step leaves `scan` and `sdepth` as
the controller does, so that the two states are equal whole, is the model's choice (log entry 16). -/
def Obligations.CycleCompletesOrAwaitsTheStep : Prop :=
  ∀ (p : Pins) (s u : State), p.rst = none → InFlight s → cycle p s = .next u →
    InFlight u ∧
    (s.ctl = .done → u = s) ∧
    (s.ctl ≠ .done → u.atBoundary → step s = .next u) ∧
    (s.ctl ≠ .done → ¬ u.atBoundary → u.arch = s.arch ∧ step u = step s)

/-- R36, R68, a whole run: whatever the host does from cycle to cycle, short of reset, the controller is where some
number of steps leads; between instructions it is exactly there. When the host answers changes no value. That it is
there with `scan` and `sdepth` too is the model's choice (log entry 16). -/
def Obligations.ControllerRunFollowsTheSteps : Prop :=
  ∀ (ps : List Pins) (s u : State), (∀ p ∈ ps, p.rst = none) → InFlight s → cycles ps s = .next u →
    InFlight u ∧ ∃ n v, n ≤ ps.length ∧ runFor n s = .next v ∧ u.arch = v.arch ∧ step u = step v ∧
      (u.atBoundary → u = v)

/-- R123: the cycles of each step that completes: 1 for most; for a skip 1 and the distance to where its scan ends;
for a stream instruction 1 to issue it and then as long as the host takes. That the cycles end in the step's own `scan`
and `sdepth` is the model's choice (log entry 16). -/
def Obligations.CyclesOfEveryStep : Prop :=
  ∀ s t : State, s.ctl = .exec → s.phase = .running → step s = .next t →
    (∀ m, fetch s = .instr .loopOpen → s.cell = 0 → skipMatch s.prog s.pc = .found m →
      cycles (List.replicate (1 + (m - s.pc)) Pins.idle) s = .next t) ∧
    (∀ e d, fetch s = .instr .loopOpen → s.cell = 0 → skipMatch s.prog s.pc = .runOff e d →
      cycles (List.replicate (1 + (e - s.pc)) Pins.idle) s = .next t) ∧
    (fetch s = .instr .input ∨ fetch s = .instr .output →
      ∀ w, cycles (List.replicate (1 + w) Pins.idle ++ [Pins.ready]) s = .next t) ∧
    (fetch s ≠ .instr .input → fetch s ≠ .instr .output → (fetch s = .instr .loopOpen → s.cell ≠ 0) →
      cycles [Pins.idle] s = .next t)

/-- R85, R105: while the host does not answer, a held engine keeps its whole state, for any number of cycles, asking
for its transaction; the byte it offers is the current cell throughout. -/
def Obligations.HoldsKeepTheState : Prop :=
  ∀ (s : State) (n : Nat), s.ctl = .waitIn ∨ s.ctl = .waitOut →
    cycles (List.replicate n Pins.idle) s = .next s ∧ (s.inReq = true ↔ s.ctl = .waitIn) ∧
      (s.outByte = some s.cell ↔ s.ctl = .waitOut)

/-- R33: during a skip the scan pointer and the skip depth stay within `len`, and so fit in PC_W bits, however deep the
skipped region nests; the scan pointer is beyond `pc`. -/
def Obligations.ScannerFitsItsWidth : Prop :=
  ∀ s : State, InFlight s → s.ctl = .skip →
    s.pc < s.scan ∧ s.scan ≤ s.len ∧ s.sdepth ≤ s.len ∧ s.scan < 2 ^ s.cfg.pcW ∧ s.sdepth < 2 ^ s.cfg.pcW

/-! ### The fields of a build -/

/-- R5, R7, R11: the values of a build that names only MAX_CODESIZE and PAGE_SIZE: 65536 cells and a `dp` of 16 bits,
4096 stack entries and a depth counter of 13 bits, end of input KEEP. -/
def Obligations.DefaultBuildHasTheSpecsValues : Prop :=
  ∀ m p : Nat,
    let cfg : Config := { maxCodeSize := m, pageSize := p }
    cfg.tapeSize = 65536 ∧ cfg.dpW = 16 ∧ cfg.stackCap = 4096 ∧ cfg.depthW = 13 ∧ cfg.eofPolicy = .keep

/-- R5, R7, D22: whatever values an audit puts in the fields, DP_W is the least width that holds every index of the
tape, and DEPTH_W the least that holds every depth from 0 to STACK_CAP. -/
def Obligations.WidthsFollowTheBuild : Prop :=
  ∀ cfg : Config, 0 < cfg.tapeSize →
    (∀ w, (∀ a < cfg.tapeSize, a < 2 ^ w) ↔ cfg.dpW ≤ w) ∧ ∀ w, (∀ d ≤ cfg.stackCap, d < 2 ^ w) ↔ cfg.depthW ≤ w

/-- R22, R25, R99, D22: no step writes a cell outside the tape of its build, moves `dp` off it, or lets the stack grow
beyond the build's capacity: each of the three bounds is kept by every step on its own account. -/
def Obligations.StepsStayWithinTheBuild : Prop :=
  ∀ s t : State, step s = .next t →
    (s.dp < s.cfg.tapeSize → t.dp < s.cfg.tapeSize) ∧
    (s.dp < s.cfg.tapeSize → ∀ a, s.cfg.tapeSize ≤ a → Memory.read t.tape a = Memory.read s.tape a) ∧
    (s.depth ≤ s.cfg.stackCap → t.depth ≤ s.cfg.stackCap)
end

