-- ==== Sys2Proof/Laws/Memory.lean ====
section
/-! SUPPORT. The tape as a list of cells: a read sees the last write to its cell and no other (20_memory.md R41, R53),
and every operation keeps the canonical form. The laws of reading hold of every list, canonical or not. -/

namespace Sys2Proof.Machine

@[simp] theorem Memory.read_nil (a : Nat) : Memory.read [] a = 0 := rfl

theorem Memory.read_cons (c : Host.Cell) (m : List Host.Cell) (a : Nat) :
    Memory.read (c :: m) a = if c.1 = a then c.2 else Memory.read m a := rfl

/-- A cell that no entry names reads 0. -/
theorem Memory.read_absent (m : List Host.Cell) (a : Nat) (h : ∀ c ∈ m, c.1 ≠ a) : Memory.read m a = 0 := by
  induction m with
  | nil => rfl
  | cons c m ih =>
    rw [read_cons, if_neg (h c List.mem_cons_self)]
    exact ih fun x hx => h x (List.mem_cons_of_mem _ hx)

/-- Removing the entries of one cell leaves every other cell. -/
theorem Memory.read_filter_other (m : List Host.Cell) (a b : Nat) (h : b ≠ a) :
    Memory.read (m.filter fun c => c.1 != a) b = Memory.read m b := by
  induction m with
  | nil => rfl
  | cons c m ih =>
    by_cases hc : c.1 = a
    · have hb : c.1 ≠ b := fun e => h (e ▸ hc)
      simp [hc, read_cons, ih, Ne.symm h]
    · simp [hc, read_cons, ih]

theorem Memory.read_insert (m : List Host.Cell) (a b : Nat) (v : Byte) (h : ∀ c ∈ m, c.1 ≠ a) :
    Memory.read (Memory.insert a v m) b = if a = b then v else Memory.read m b := by
  induction m with
  | nil => rfl
  | cons c m ih =>
    have ih := ih fun x hx => h x (List.mem_cons_of_mem _ hx)
    have hc : c.1 ≠ a := h c List.mem_cons_self
    by_cases hlt : a < c.1
    · simp [Memory.insert, hlt, read_cons]
    · by_cases hab : a = b
      · subst hab
        simp [Memory.insert, hlt, read_cons, ih, hc]
      · simp [Memory.insert, hlt, read_cons, ih, hab]

/-- Read after write, at the written cell and at every other. -/
theorem Memory.read_write (m : List Host.Cell) (a b : Nat) (v : Byte) :
    Memory.read (Memory.write m a v) b = if a = b then v else Memory.read m b := by
  have habs : ∀ c ∈ m.filter (fun c => c.1 != a), c.1 ≠ a := by simp
  by_cases hv : v = 0
  · rw [Memory.write, if_pos hv]
    by_cases hab : a = b
    · subst hab
      rw [read_absent _ _ habs, if_pos rfl, hv]
    · rw [if_neg hab, read_filter_other _ _ _ (Ne.symm hab)]
  · rw [Memory.write, if_neg hv, read_insert _ _ _ _ habs]
    by_cases hab : a = b
    · simp [hab]
    · rw [if_neg hab, if_neg hab, read_filter_other _ _ _ (Ne.symm hab)]

@[simp] theorem Memory.read_write_same (m : List Host.Cell) (a : Nat) (v : Byte) :
    Memory.read (Memory.write m a v) a = v := by
  rw [read_write, if_pos rfl]

theorem Memory.read_write_other (m : List Host.Cell) {a b : Nat} (v : Byte) (h : b ≠ a) :
    Memory.read (Memory.write m a v) b = Memory.read m b := by
  rw [read_write, if_neg (Ne.symm h)]

theorem Memory.filter_wf {size : Nat} {m : List Host.Cell} (q : Host.Cell → Bool) (h : Memory.wf size m) :
    Memory.wf size (m.filter q) :=
  ⟨h.1.filter q, fun c hc => h.2 c (List.mem_filter.1 hc).1⟩

theorem Memory.mem_insert {m : List Host.Cell} {a : Nat} {v : Byte} {c : Host.Cell} :
    c ∈ Memory.insert a v m ↔ c = (a, v) ∨ c ∈ m := by
  induction m with
  | nil => simp [Memory.insert]
  | cons x m ih =>
    by_cases hlt : a < x.1
    · simp [Memory.insert, hlt]
    · simp [Memory.insert, hlt, ih, or_left_comm]

theorem Memory.insert_wf {size : Nat} {m : List Host.Cell} {a : Nat} {v : Byte} (h : Memory.wf size m) (ha : a < size)
    (hv : v ≠ 0) (habs : ∀ c ∈ m, c.1 ≠ a) : Memory.wf size (Memory.insert a v m) := by
  refine ⟨?_, fun c hc => ?_⟩
  · induction m with
    | nil => simp [Memory.insert]
    | cons x m ih =>
      obtain ⟨hx, hm⟩ := List.pairwise_cons.1 h.1
      have hxa : x.1 ≠ a := habs x List.mem_cons_self
      by_cases hlt : a < x.1
      · simp only [Memory.insert, hlt, if_true]
        refine List.pairwise_cons.2 ⟨fun c hc => ?_, h.1⟩
        rcases List.mem_cons.1 hc with rfl | hc
        · exact hlt
        · exact hlt.trans (hx c hc)
      · simp only [Memory.insert, hlt, if_false]
        refine List.pairwise_cons.2 ⟨fun c hc => ?_, ?_⟩
        · rcases mem_insert.1 hc with rfl | hc
          · exact lt_of_le_of_ne (Nat.le_of_not_lt hlt) hxa
          · exact hx c hc
        · exact ih ⟨hm, fun c hc => h.2 c (List.mem_cons_of_mem _ hc)⟩ fun c hc => habs c (List.mem_cons_of_mem _ hc)
  · rcases mem_insert.1 hc with rfl | hc
    · exact ⟨ha, hv⟩
    · exact h.2 c hc

/-- A write inside the tape keeps the canonical form. -/
theorem Memory.write_wf {size : Nat} {m : List Host.Cell} {a : Nat} {v : Byte} (h : Memory.wf size m) (ha : a < size) :
    Memory.wf size (Memory.write m a v) := by
  by_cases hv : v = 0
  · rw [Memory.write, if_pos hv]
    exact filter_wf _ h
  · rw [Memory.write, if_neg hv]
    exact insert_wf (filter_wf _ h) ha hv (by simp)

/-- The moves of the data pointer stay on the tape (10_state.md R22). -/
theorem nextPtr_lt {size : Nat} (p : Nat) (h : 0 < size) : nextPtr size p < size := Nat.mod_lt _ h

theorem prevPtr_lt {size : Nat} (p : Nat) (h : 0 < size) : prevPtr size p < size := Nat.mod_lt _ h

/-- The move down is the mathematical remainder of `p - 1` (00_scope.md R13, 40_pointer_cell.md R70). -/
theorem prevPtr_int {size : Nat} (p : Nat) (h : 0 < size) : ((prevPtr size p : Nat) : Int) = ((p : Int) - 1) % size := by
  rw [prevPtr, Int.natCast_mod, Nat.cast_add, Nat.cast_sub h]
  rw [show (p : Int) + (size - (1 : Nat)) = p - 1 + size by push_cast; ring, Int.add_emod_right]

/-- A write to the current cell keeps the canonical form. -/
theorem State.setCell_wf {s : State} (v : Byte) (hd : s.dp < s.cfg.tapeSize) (h : Memory.wf s.cfg.tapeSize s.tape) :
    Memory.wf s.cfg.tapeSize (s.setCell v).tape :=
  Memory.write_wf h hd

/-- The tape after reset is canonical. -/
theorem reset_tape_wf : Memory.wf State.reset.cfg.tapeSize State.reset.tape := by decide

end Sys2Proof.Machine
end

