-- ==== Sys2Proof/Laws/PerInstr.lean ====
section
/-! SUPPORT. Per-instruction facts about the instruction as syntax, one lemma per constructor. -/

namespace Sys2Proof.Laws

/-- The byte of a well-formed instruction belongs to its row of spec/opcode_table.json. -/
def TableRow.Statement (i : Instr) : Prop := i.wellFormed = true → i.row.holds (encodeByte i) = true

theorem TableRow.right : TableRow.Statement .right := by unfold TableRow.Statement; decide
theorem TableRow.left : TableRow.Statement .left := by unfold TableRow.Statement; decide
theorem TableRow.inc : TableRow.Statement .inc := by unfold TableRow.Statement; decide
theorem TableRow.dec : TableRow.Statement .dec := by unfold TableRow.Statement; decide
theorem TableRow.loopOpen : TableRow.Statement .loopOpen := by unfold TableRow.Statement; decide
theorem TableRow.loopClose : TableRow.Statement .loopClose := by unfold TableRow.Statement; decide
theorem TableRow.output : TableRow.Statement .output := by unfold TableRow.Statement; decide
theorem TableRow.input : TableRow.Statement .input := by unfold TableRow.Statement; decide
theorem TableRow.halt : TableRow.Statement .halt := by unfold TableRow.Statement; decide

theorem TableRow.nop (b : Byte) : TableRow.Statement (.nop b) := fun h => by
  simpa [Instr.wellFormed, notNopBytes, OpcodeRow.holds, Instr.row, encodeByte] using h

end Sys2Proof.Laws
end

