-- ==== Sys2Proof/Laws/Scanner.lean ====
section
/-! SUPPORT. The forward-skip scanner: what one scanned byte does, and where a scan can end. -/

namespace Sys2Proof.Machine

@[simp] theorem skipScan_nil (i d : Nat) : skipScan [] i d = .runOff i d := rfl

theorem skipScan_cons (b : Byte) (l : List Byte) (i d : Nat) :
    skipScan (b :: l) i d =
      if b = Config.terminator then .runOff i d
      else if nestAfter d b = 0 then .found i else skipScan l (i + 1) (nestAfter d b) := rfl

/-- The three scanned bytes (41_loop_control.md R76). -/
theorem nestAfter_open (d : Nat) : nestAfter d Opcode.loopOpen = d + 1 := by
  simp [nestAfter, Opcode.loopOpen, Opcode.loopClose]

theorem nestAfter_close (d : Nat) : nestAfter d Opcode.loopClose = d - 1 := by
  simp [nestAfter, Opcode.loopOpen, Opcode.loopClose]

theorem nestAfter_other {b : Byte} (d : Nat) (h : b ≠ Opcode.loopOpen) (h' : b ≠ Opcode.loopClose) :
    nestAfter d b = d := by
  simp [nestAfter, h, h']

/-- A scanned byte adds at most 1 to the depth. -/
theorem nestAfter_le (d : Nat) (b : Byte) : nestAfter d b ≤ d + 1 := by
  unfold nestAfter
  split <;> omega

/-- A scan ends at depth 0 only with a `]` met at depth 1. -/
theorem nestAfter_eq_zero {d : Nat} {b : Byte} (hd : 1 ≤ d) (h : nestAfter d b = 0) :
    b = Opcode.loopClose ∧ d = 1 := by
  by_cases ho : b = Opcode.loopOpen
  · subst ho
    rw [nestAfter_open] at h
    omega
  · by_cases hc : b = Opcode.loopClose
    · subst hc
      rw [nestAfter_close] at h
      exact ⟨rfl, by omega⟩
    · rw [nestAfter_other d ho hc] at h
      omega

/-- The depth counts the brackets scanned: `[` up, `]` down. -/
theorem nestAfter_count {d : Nat} {b : Byte} (hd : 1 ≤ d) :
    nestAfter d b + [b].count Opcode.loopClose = d + [b].count Opcode.loopOpen := by
  by_cases ho : b = Opcode.loopOpen
  · subst ho
    simp [nestAfter, Opcode.loopOpen, Opcode.loopClose]
  · by_cases hc : b = Opcode.loopClose
    · subst hc
      simp [nestAfter, Opcode.loopOpen, Opcode.loopClose]
      omega
    · rw [nestAfter_other d ho hc, List.count_singleton, List.count_singleton]
      simp [ho, hc]

/-- A scan from index `i` finds nothing before `i` and nothing past its bytes. -/
theorem skipScan_found_bounds {l : List Byte} {i d m : Nat} (h : skipScan l i d = .found m) :
    i ≤ m ∧ m < i + l.length := by
  induction l generalizing i d with
  | nil => simp at h
  | cons b l ih =>
    rw [skipScan_cons] at h
    split at h
    · simp at h
    · split at h
      · cases h
        simp
      · have := ih h
        simp only [List.length_cons]
        omega

/-- A scan from index `i` runs off no earlier than `i` and no later than the end of its bytes. -/
theorem skipScan_runOff_bounds {l : List Byte} {i d e d' : Nat} (h : skipScan l i d = .runOff e d') :
    i ≤ e ∧ e ≤ i + l.length := by
  induction l generalizing i d with
  | nil =>
    cases h
    simp
  | cons b l ih =>
    rw [skipScan_cons] at h
    simp only [List.length_cons]
    split at h
    · cases h
      omega
    · split at h
      · simp at h
      · have := ih h
        omega

end Sys2Proof.Machine
end

