-- ==== Sys2Proof/Laws/State.lean ====
section
/-! SUPPORT. What each update of the state does to each field, one lemma per field per update, so that no proof unfolds
a record update; and what the two compound reads of a state see of it. -/

namespace Sys2Proof.Machine

/-! ### `State.goto`: `pc <- target` (10_state.md R20) -/

@[simp] theorem State.goto_pc (s : State) (target : Nat) : (s.goto target).pc = target := rfl
@[simp] theorem State.goto_dp (s : State) (target : Nat) : (s.goto target).dp = s.dp := rfl
@[simp] theorem State.goto_tape (s : State) (target : Nat) : (s.goto target).tape = s.tape := rfl
@[simp] theorem State.goto_lstack (s : State) (target : Nat) : (s.goto target).lstack = s.lstack := rfl
@[simp] theorem State.goto_phase (s : State) (target : Nat) : (s.goto target).phase = s.phase := rfl
@[simp] theorem State.goto_status (s : State) (target : Nat) : (s.goto target).status = s.status := rfl
@[simp] theorem State.goto_ctl (s : State) (target : Nat) : (s.goto target).ctl = .exec := rfl
@[simp] theorem State.goto_scan (s : State) (target : Nat) : (s.goto target).scan = s.scan := rfl
@[simp] theorem State.goto_sdepth (s : State) (target : Nat) : (s.goto target).sdepth = s.sdepth := rfl
@[simp] theorem State.goto_inp (s : State) (target : Nat) : (s.goto target).inp = s.inp := rfl
@[simp] theorem State.goto_out (s : State) (target : Nat) : (s.goto target).out = s.out := rfl
@[simp] theorem State.goto_prog (s : State) (target : Nat) : (s.goto target).prog = s.prog := rfl
@[simp] theorem State.goto_cfg (s : State) (target : Nat) : (s.goto target).cfg = s.cfg := rfl

/-! ### `State.advance`: the advance past one instruction (10_state.md R20) -/

@[simp] theorem State.advance_pc (s : State) : (s.advance).pc = s.pc + 1 := rfl
@[simp] theorem State.advance_dp (s : State) : (s.advance).dp = s.dp := rfl
@[simp] theorem State.advance_tape (s : State) : (s.advance).tape = s.tape := rfl
@[simp] theorem State.advance_lstack (s : State) : (s.advance).lstack = s.lstack := rfl
@[simp] theorem State.advance_phase (s : State) : (s.advance).phase = s.phase := rfl
@[simp] theorem State.advance_status (s : State) : (s.advance).status = s.status := rfl
@[simp] theorem State.advance_ctl (s : State) : (s.advance).ctl = .exec := rfl
@[simp] theorem State.advance_scan (s : State) : (s.advance).scan = s.scan := rfl
@[simp] theorem State.advance_sdepth (s : State) : (s.advance).sdepth = s.sdepth := rfl
@[simp] theorem State.advance_inp (s : State) : (s.advance).inp = s.inp := rfl
@[simp] theorem State.advance_out (s : State) : (s.advance).out = s.out := rfl
@[simp] theorem State.advance_prog (s : State) : (s.advance).prog = s.prog := rfl
@[simp] theorem State.advance_cfg (s : State) : (s.advance).cfg = s.cfg := rfl

/-! ### `State.push`: `push` (10_state.md R27) -/

@[simp] theorem State.push_pc (s : State) (v : Nat) : (s.push v).pc = s.pc := rfl
@[simp] theorem State.push_dp (s : State) (v : Nat) : (s.push v).dp = s.dp := rfl
@[simp] theorem State.push_tape (s : State) (v : Nat) : (s.push v).tape = s.tape := rfl
@[simp] theorem State.push_lstack (s : State) (v : Nat) : (s.push v).lstack = s.lstack ++ [v] := rfl
@[simp] theorem State.push_phase (s : State) (v : Nat) : (s.push v).phase = s.phase := rfl
@[simp] theorem State.push_status (s : State) (v : Nat) : (s.push v).status = s.status := rfl
@[simp] theorem State.push_ctl (s : State) (v : Nat) : (s.push v).ctl = s.ctl := rfl
@[simp] theorem State.push_scan (s : State) (v : Nat) : (s.push v).scan = s.scan := rfl
@[simp] theorem State.push_sdepth (s : State) (v : Nat) : (s.push v).sdepth = s.sdepth := rfl
@[simp] theorem State.push_inp (s : State) (v : Nat) : (s.push v).inp = s.inp := rfl
@[simp] theorem State.push_out (s : State) (v : Nat) : (s.push v).out = s.out := rfl
@[simp] theorem State.push_prog (s : State) (v : Nat) : (s.push v).prog = s.prog := rfl
@[simp] theorem State.push_cfg (s : State) (v : Nat) : (s.push v).cfg = s.cfg := rfl

/-! ### `State.pop`: `pop` (10_state.md R27) -/

@[simp] theorem State.pop_pc (s : State) : (s.pop).pc = s.pc := rfl
@[simp] theorem State.pop_dp (s : State) : (s.pop).dp = s.dp := rfl
@[simp] theorem State.pop_tape (s : State) : (s.pop).tape = s.tape := rfl
@[simp] theorem State.pop_lstack (s : State) : (s.pop).lstack = s.lstack.dropLast := rfl
@[simp] theorem State.pop_phase (s : State) : (s.pop).phase = s.phase := rfl
@[simp] theorem State.pop_status (s : State) : (s.pop).status = s.status := rfl
@[simp] theorem State.pop_ctl (s : State) : (s.pop).ctl = s.ctl := rfl
@[simp] theorem State.pop_scan (s : State) : (s.pop).scan = s.scan := rfl
@[simp] theorem State.pop_sdepth (s : State) : (s.pop).sdepth = s.sdepth := rfl
@[simp] theorem State.pop_inp (s : State) : (s.pop).inp = s.inp := rfl
@[simp] theorem State.pop_out (s : State) : (s.pop).out = s.out := rfl
@[simp] theorem State.pop_prog (s : State) : (s.pop).prog = s.prog := rfl
@[simp] theorem State.pop_cfg (s : State) : (s.pop).cfg = s.cfg := rfl

/-! ### `State.consume`: the input after one read (20_memory.md R45) -/

@[simp] theorem State.consume_pc (s : State) : (s.consume).pc = s.pc := rfl
@[simp] theorem State.consume_dp (s : State) : (s.consume).dp = s.dp := rfl
@[simp] theorem State.consume_tape (s : State) : (s.consume).tape = s.tape := rfl
@[simp] theorem State.consume_lstack (s : State) : (s.consume).lstack = s.lstack := rfl
@[simp] theorem State.consume_phase (s : State) : (s.consume).phase = s.phase := rfl
@[simp] theorem State.consume_status (s : State) : (s.consume).status = s.status := rfl
@[simp] theorem State.consume_ctl (s : State) : (s.consume).ctl = s.ctl := rfl
@[simp] theorem State.consume_scan (s : State) : (s.consume).scan = s.scan := rfl
@[simp] theorem State.consume_sdepth (s : State) : (s.consume).sdepth = s.sdepth := rfl
@[simp] theorem State.consume_inp (s : State) : (s.consume).inp = s.inp.tail := rfl
@[simp] theorem State.consume_out (s : State) : (s.consume).out = s.out := rfl
@[simp] theorem State.consume_prog (s : State) : (s.consume).prog = s.prog := rfl
@[simp] theorem State.consume_cfg (s : State) : (s.consume).cfg = s.cfg := rfl

/-! ### `State.outWrite`: `OutWrite` (20_memory.md R46) -/

@[simp] theorem State.outWrite_pc (s : State) (b : Byte) : (s.outWrite b).pc = s.pc := rfl
@[simp] theorem State.outWrite_dp (s : State) (b : Byte) : (s.outWrite b).dp = s.dp := rfl
@[simp] theorem State.outWrite_tape (s : State) (b : Byte) : (s.outWrite b).tape = s.tape := rfl
@[simp] theorem State.outWrite_lstack (s : State) (b : Byte) : (s.outWrite b).lstack = s.lstack := rfl
@[simp] theorem State.outWrite_phase (s : State) (b : Byte) : (s.outWrite b).phase = s.phase := rfl
@[simp] theorem State.outWrite_status (s : State) (b : Byte) : (s.outWrite b).status = s.status := rfl
@[simp] theorem State.outWrite_ctl (s : State) (b : Byte) : (s.outWrite b).ctl = s.ctl := rfl
@[simp] theorem State.outWrite_scan (s : State) (b : Byte) : (s.outWrite b).scan = s.scan := rfl
@[simp] theorem State.outWrite_sdepth (s : State) (b : Byte) : (s.outWrite b).sdepth = s.sdepth := rfl
@[simp] theorem State.outWrite_inp (s : State) (b : Byte) : (s.outWrite b).inp = s.inp := rfl
@[simp] theorem State.outWrite_out (s : State) (b : Byte) : (s.outWrite b).out = s.out ++ [b] := rfl
@[simp] theorem State.outWrite_prog (s : State) (b : Byte) : (s.outWrite b).prog = s.prog := rfl
@[simp] theorem State.outWrite_cfg (s : State) (b : Byte) : (s.outWrite b).cfg = s.cfg := rfl

/-! ### `State.halt`: `halt()` (43_halt_nop.md R92) -/

@[simp] theorem State.halt_pc (s : State) : (s.halt).pc = s.pc := rfl
@[simp] theorem State.halt_dp (s : State) : (s.halt).dp = s.dp := rfl
@[simp] theorem State.halt_tape (s : State) : (s.halt).tape = s.tape := rfl
@[simp] theorem State.halt_lstack (s : State) : (s.halt).lstack = s.lstack := rfl
@[simp] theorem State.halt_phase (s : State) : (s.halt).phase = .halted := rfl
@[simp] theorem State.halt_status (s : State) : (s.halt).status = 0 := rfl
@[simp] theorem State.halt_ctl (s : State) : (s.halt).ctl = .done := rfl
@[simp] theorem State.halt_scan (s : State) : (s.halt).scan = s.scan := rfl
@[simp] theorem State.halt_sdepth (s : State) : (s.halt).sdepth = s.sdepth := rfl
@[simp] theorem State.halt_inp (s : State) : (s.halt).inp = s.inp := rfl
@[simp] theorem State.halt_out (s : State) : (s.halt).out = s.out := rfl
@[simp] theorem State.halt_prog (s : State) : (s.halt).prog = s.prog := rfl
@[simp] theorem State.halt_cfg (s : State) : (s.halt).cfg = s.cfg := rfl

/-! ### `State.raise`: `raise F` (60_exceptions.md R100) -/

@[simp] theorem State.raise_pc (s : State) (f : FatalError) : (s.raise f).pc = s.pc := rfl
@[simp] theorem State.raise_dp (s : State) (f : FatalError) : (s.raise f).dp = s.dp := rfl
@[simp] theorem State.raise_tape (s : State) (f : FatalError) : (s.raise f).tape = s.tape := rfl
@[simp] theorem State.raise_lstack (s : State) (f : FatalError) : (s.raise f).lstack = s.lstack := rfl
@[simp] theorem State.raise_phase (s : State) (f : FatalError) : (s.raise f).phase = .faulted := rfl
@[simp] theorem State.raise_status (s : State) (f : FatalError) : (s.raise f).status = f.code := rfl
@[simp] theorem State.raise_ctl (s : State) (f : FatalError) : (s.raise f).ctl = .done := rfl
@[simp] theorem State.raise_scan (s : State) (f : FatalError) : (s.raise f).scan = s.scan := rfl
@[simp] theorem State.raise_sdepth (s : State) (f : FatalError) : (s.raise f).sdepth = s.sdepth := rfl
@[simp] theorem State.raise_inp (s : State) (f : FatalError) : (s.raise f).inp = s.inp := rfl
@[simp] theorem State.raise_out (s : State) (f : FatalError) : (s.raise f).out = s.out := rfl
@[simp] theorem State.raise_prog (s : State) (f : FatalError) : (s.raise f).prog = s.prog := rfl
@[simp] theorem State.raise_cfg (s : State) (f : FatalError) : (s.raise f).cfg = s.cfg := rfl

/-! ### `State.setScanner`: the scanner registers (10_state.md R33) -/

@[simp] theorem State.setScanner_pc (s : State) (a d : Nat) : (s.setScanner a d).pc = s.pc := rfl
@[simp] theorem State.setScanner_dp (s : State) (a d : Nat) : (s.setScanner a d).dp = s.dp := rfl
@[simp] theorem State.setScanner_tape (s : State) (a d : Nat) : (s.setScanner a d).tape = s.tape := rfl
@[simp] theorem State.setScanner_lstack (s : State) (a d : Nat) : (s.setScanner a d).lstack = s.lstack := rfl
@[simp] theorem State.setScanner_phase (s : State) (a d : Nat) : (s.setScanner a d).phase = s.phase := rfl
@[simp] theorem State.setScanner_status (s : State) (a d : Nat) : (s.setScanner a d).status = s.status := rfl
@[simp] theorem State.setScanner_ctl (s : State) (a d : Nat) : (s.setScanner a d).ctl = s.ctl := rfl
@[simp] theorem State.setScanner_scan (s : State) (a d : Nat) : (s.setScanner a d).scan = a := rfl
@[simp] theorem State.setScanner_sdepth (s : State) (a d : Nat) : (s.setScanner a d).sdepth = d := rfl
@[simp] theorem State.setScanner_inp (s : State) (a d : Nat) : (s.setScanner a d).inp = s.inp := rfl
@[simp] theorem State.setScanner_out (s : State) (a d : Nat) : (s.setScanner a d).out = s.out := rfl
@[simp] theorem State.setScanner_prog (s : State) (a d : Nat) : (s.setScanner a d).prog = s.prog := rfl
@[simp] theorem State.setScanner_cfg (s : State) (a d : Nat) : (s.setScanner a d).cfg = s.cfg := rfl

/-! ### `State.setCell`: `MemWrite(dp, 1, v)` (10_state.md R23) -/

@[simp] theorem State.setCell_pc (s : State) (v : Byte) : (s.setCell v).pc = s.pc := rfl
@[simp] theorem State.setCell_dp (s : State) (v : Byte) : (s.setCell v).dp = s.dp := rfl
@[simp] theorem State.setCell_tape (s : State) (v : Byte) : (s.setCell v).tape = Memory.write s.tape s.dp v := rfl
@[simp] theorem State.setCell_lstack (s : State) (v : Byte) : (s.setCell v).lstack = s.lstack := rfl
@[simp] theorem State.setCell_phase (s : State) (v : Byte) : (s.setCell v).phase = s.phase := rfl
@[simp] theorem State.setCell_status (s : State) (v : Byte) : (s.setCell v).status = s.status := rfl
@[simp] theorem State.setCell_ctl (s : State) (v : Byte) : (s.setCell v).ctl = s.ctl := rfl
@[simp] theorem State.setCell_scan (s : State) (v : Byte) : (s.setCell v).scan = s.scan := rfl
@[simp] theorem State.setCell_sdepth (s : State) (v : Byte) : (s.setCell v).sdepth = s.sdepth := rfl
@[simp] theorem State.setCell_inp (s : State) (v : Byte) : (s.setCell v).inp = s.inp := rfl
@[simp] theorem State.setCell_out (s : State) (v : Byte) : (s.setCell v).out = s.out := rfl
@[simp] theorem State.setCell_prog (s : State) (v : Byte) : (s.setCell v).prog = s.prog := rfl
@[simp] theorem State.setCell_cfg (s : State) (v : Byte) : (s.setCell v).cfg = s.cfg := rfl

/-! ### `State.setDp`: `dp <- v` (10_state.md R22) -/

@[simp] theorem State.setDp_pc (s : State) (v : Nat) : (s.setDp v).pc = s.pc := rfl
@[simp] theorem State.setDp_dp (s : State) (v : Nat) : (s.setDp v).dp = v := rfl
@[simp] theorem State.setDp_tape (s : State) (v : Nat) : (s.setDp v).tape = s.tape := rfl
@[simp] theorem State.setDp_lstack (s : State) (v : Nat) : (s.setDp v).lstack = s.lstack := rfl
@[simp] theorem State.setDp_phase (s : State) (v : Nat) : (s.setDp v).phase = s.phase := rfl
@[simp] theorem State.setDp_status (s : State) (v : Nat) : (s.setDp v).status = s.status := rfl
@[simp] theorem State.setDp_ctl (s : State) (v : Nat) : (s.setDp v).ctl = s.ctl := rfl
@[simp] theorem State.setDp_scan (s : State) (v : Nat) : (s.setDp v).scan = s.scan := rfl
@[simp] theorem State.setDp_sdepth (s : State) (v : Nat) : (s.setDp v).sdepth = s.sdepth := rfl
@[simp] theorem State.setDp_inp (s : State) (v : Nat) : (s.setDp v).inp = s.inp := rfl
@[simp] theorem State.setDp_out (s : State) (v : Nat) : (s.setDp v).out = s.out := rfl
@[simp] theorem State.setDp_prog (s : State) (v : Nat) : (s.setDp v).prog = s.prog := rfl
@[simp] theorem State.setDp_cfg (s : State) (v : Nat) : (s.setDp v).cfg = s.cfg := rfl

/-! ### `State.arch`: the view without the hidden registers -/

@[simp] theorem State.arch_pc (s : State) : (s.arch).pc = s.pc := rfl
@[simp] theorem State.arch_dp (s : State) : (s.arch).dp = s.dp := rfl
@[simp] theorem State.arch_tape (s : State) : (s.arch).tape = s.tape := rfl
@[simp] theorem State.arch_lstack (s : State) : (s.arch).lstack = s.lstack := rfl
@[simp] theorem State.arch_phase (s : State) : (s.arch).phase = s.phase := rfl
@[simp] theorem State.arch_status (s : State) : (s.arch).status = s.status := rfl
@[simp] theorem State.arch_ctl (s : State) : (s.arch).ctl = .exec := rfl
@[simp] theorem State.arch_scan (s : State) : (s.arch).scan = 0 := rfl
@[simp] theorem State.arch_sdepth (s : State) : (s.arch).sdepth = 0 := rfl
@[simp] theorem State.arch_inp (s : State) : (s.arch).inp = s.inp := rfl
@[simp] theorem State.arch_out (s : State) : (s.arch).out = s.out := rfl
@[simp] theorem State.arch_prog (s : State) : (s.arch).prog = s.prog := rfl
@[simp] theorem State.arch_cfg (s : State) : (s.arch).cfg = s.cfg := rfl

/-! ### Compound reads -/

@[simp] theorem State.len_goto (s : State) (n : Nat) : (s.goto n).len = s.len := rfl
@[simp] theorem State.len_advance (s : State) : s.advance.len = s.len := rfl
@[simp] theorem State.cell_arch (s : State) : s.arch.cell = s.cell := rfl
@[simp] theorem State.len_arch (s : State) : s.arch.len = s.len := rfl

/-- Two states with the same architectural view differ in hidden registers only. -/
theorem State.arch_eq_iff (s t : State) :
    s.arch = t.arch ↔ s = { t with ctl := s.ctl, scan := s.scan, sdepth := s.sdepth } := by
  cases s; cases t; simp [State.arch]

@[simp] theorem State.cellIsZero_iff (s : State) : s.cellIsZero = true ↔ s.cell = 0 := by
  simp [State.cellIsZero]

theorem State.cellIsZero_eq_false {s : State} (h : s.cell ≠ 0) : s.cellIsZero = false :=
  Bool.eq_false_iff.2 fun h' => h ((State.cellIsZero_iff s).1 h')

end Sys2Proof.Machine
end

