-- ==== Sys2Proof/Laws/Step.lean ====
section
/-! SUPPORT. What a step can be: the cases of the fetch, the cases of the step, and the equation of each instruction's
meaning. Later proofs cite these and do not unfold `step` or `exec`. -/

namespace Sys2Proof.Machine

/-! ### The fetch (60_exceptions.md R101) -/

theorem fetch_ended {s : State} (h : s.phase ≠ .running) : fetch s = .ended := by
  cases hp : s.phase <;> simp_all [fetch]

theorem fetch_tooLarge {s : State} (hp : s.phase = .running) (h : s.cfg.maxCodeSize < s.len) :
    fetch s = .tooLarge := by
  simp [fetch, hp, h]

theorem fetch_endOfBuffer {s : State} (hp : s.phase = .running) (hl : s.len ≤ s.cfg.maxCodeSize)
    (h : s.pc = s.len) : fetch s = .endOfBuffer := by
  simp [fetch, hp, Nat.not_lt.2 hl, h]

theorem fetch_instr {s : State} {b : Byte} (hp : s.phase = .running) (hl : s.len ≤ s.cfg.maxCodeSize)
    (h : s.prog[s.pc]? = some b) : fetch s = .instr (decodeByte b) := by
  have hlt : s.pc < s.len := (List.getElem?_eq_some_iff.1 h).1
  simp [fetch, hp, Nat.not_lt.2 hl, Nat.ne_of_lt hlt, State.progRead, h]

/-- What a fetched instruction says of the state. -/
theorem fetch_instr_iff (s : State) (i : Instr) :
    fetch s = .instr i ↔
      s.phase = .running ∧ s.len ≤ s.cfg.maxCodeSize ∧ ∃ b, s.prog[s.pc]? = some b ∧ decodeByte b = i := by
  refine ⟨fun h => ?_, fun ⟨hp, hl, b, hb, hi⟩ => hi ▸ fetch_instr hp hl hb⟩
  have hp : s.phase = .running := by
    by_contra hp
    rw [fetch_ended hp] at h
    cases h
  have hl : s.len ≤ s.cfg.maxCodeSize := by
    by_contra hl
    rw [fetch_tooLarge hp (Nat.lt_of_not_le hl)] at h
    cases h
  refine ⟨hp, hl, ?_⟩
  rw [fetch, hp] at h
  simp only [Nat.not_lt.2 hl, if_false] at h
  split at h
  · cases h
  · cases hr : s.progRead s.pc with
    | none => simp [hr] at h
    | some b =>
      simp only [hr, Fetched.instr.injEq] at h
      exact ⟨b, hr, h⟩

/-- The fetch sees the run and not the hidden registers, the tape, the stack or the streams. -/
theorem fetch_congr {s t : State} (hp : t.phase = s.phase) (hc : t.cfg = s.cfg) (hg : t.prog = s.prog)
    (hpc : t.pc = s.pc) : fetch t = fetch s := by
  cases s
  cases t
  subst hp hc hg hpc
  rfl

/-! ### The step (30_encoding.md R66) -/

theorem step_ended {s : State} (h : s.phase ≠ .running) : step s = .next s := by
  rw [step, fetch_ended h]

theorem step_of_instr {s : State} {i : Instr} (h : fetch s = .instr i) : step s = exec i s := by
  rw [step, h]

/-- Everything a step can do. -/
theorem step_cases {s t : State} (h : step s = .next t) :
    (s.phase ≠ .running ∧ t = s) ∨
    (s.phase = .running ∧ s.cfg.maxCodeSize < s.len ∧ t = s.raise .programTooLarge) ∨
    (s.phase = .running ∧ s.len ≤ s.cfg.maxCodeSize ∧ s.pc = s.len ∧ t = s.halt) ∨
    (∃ i, fetch s = .instr i ∧ exec i s = .next t) := by
  by_cases hp : s.phase = .running
  · by_cases hl : s.cfg.maxCodeSize < s.len
    · rw [step, fetch_tooLarge hp hl] at h
      cases h
      exact .inr (.inl ⟨hp, hl, rfl⟩)
    · by_cases he : s.pc = s.len
      · rw [step, fetch_endOfBuffer hp (Nat.le_of_not_lt hl) he] at h
        cases h
        exact .inr (.inr (.inl ⟨hp, Nat.le_of_not_lt hl, he, rfl⟩))
      · cases hr : s.prog[s.pc]? with
        | none =>
          have hf : fetch s = .outside := by simp [fetch, hp, hl, he, State.progRead, hr]
          rw [step, hf] at h
          cases h
        | some b =>
          have hf := fetch_instr hp (Nat.le_of_not_lt hl) hr
          rw [step_of_instr hf] at h
          exact .inr (.inr (.inr ⟨_, hf, h⟩))
  · rw [step_ended hp] at h
    cases h
    exact .inl ⟨hp, rfl⟩

/-! ### The meanings -/

theorem exec_right (s : State) : exec .right s = .next (s.setDp (nextPtr s.cfg.tapeSize s.dp)).advance := rfl
theorem exec_left (s : State) : exec .left s = .next (s.setDp (prevPtr s.cfg.tapeSize s.dp)).advance := rfl
theorem exec_inc (s : State) : exec .inc s = .next (s.setCell (incByte s.cell)).advance := rfl
theorem exec_dec (s : State) : exec .dec s = .next (s.setCell (decByte s.cell)).advance := rfl
theorem exec_output (s : State) : exec .output s = .next (s.outWrite s.cell).advance := rfl
theorem exec_input (s : State) : exec .input s = .next (s.consume.receive s.inAnswer).advance := rfl
theorem exec_halt (s : State) : exec .halt s = .next s.halt := rfl
theorem exec_nop (b : Byte) (s : State) : exec (.nop b) s = .next s.advance := rfl

/-- The cases of `[` (41_loop_control.md R77). -/
theorem exec_loopOpen_skip {s : State} {m : Nat} (hz : s.cell = 0) (h : skipMatch s.prog s.pc = .found m) :
    exec .loopOpen s = .next ((s.setScanner m 1).goto (m + 1)) := by
  simp [exec, execLoopOpen, State.cellIsZero, hz, skipLoop, h]

theorem exec_loopOpen_runOff {s : State} {e d : Nat} (hz : s.cell = 0) (h : skipMatch s.prog s.pc = .runOff e d) :
    exec .loopOpen s = .next ((s.setScanner e d).raise .unbalancedBracket) := by
  simp [exec, execLoopOpen, State.cellIsZero, hz, skipLoop, h]

theorem exec_loopOpen_push {s : State} (hz : s.cell ≠ 0) (h : s.depth < s.cfg.stackCap) :
    exec .loopOpen s = .next (s.push s.pc).advance := by
  simp [exec, execLoopOpen, State.cellIsZero_eq_false hz, enterLoop, Nat.not_le.2 h]

theorem exec_loopOpen_overflow {s : State} (hz : s.cell ≠ 0) (h : s.cfg.stackCap ≤ s.depth) :
    exec .loopOpen s = .next (s.raise .controlStackOverflow) := by
  simp [exec, execLoopOpen, State.cellIsZero_eq_false hz, enterLoop, h]

/-- Everything `[` can do. -/
theorem exec_loopOpen_cases {s t : State} (h : exec .loopOpen s = .next t) :
    (s.cell = 0 ∧ ∃ m, skipMatch s.prog s.pc = .found m ∧ t = (s.setScanner m 1).goto (m + 1)) ∨
    (s.cell = 0 ∧ ∃ e d, skipMatch s.prog s.pc = .runOff e d ∧ t = (s.setScanner e d).raise .unbalancedBracket) ∨
    (s.cell ≠ 0 ∧ s.depth < s.cfg.stackCap ∧ t = (s.push s.pc).advance) ∨
    (s.cell ≠ 0 ∧ s.cfg.stackCap ≤ s.depth ∧ t = s.raise .controlStackOverflow) := by
  by_cases hz : s.cell = 0
  · cases hm : skipMatch s.prog s.pc with
    | found m =>
      rw [exec_loopOpen_skip hz hm] at h
      cases h
      exact .inl ⟨hz, m, rfl, rfl⟩
    | runOff e d =>
      rw [exec_loopOpen_runOff hz hm] at h
      cases h
      exact .inr (.inl ⟨hz, e, d, rfl, rfl⟩)
  · by_cases hd : s.depth < s.cfg.stackCap
    · rw [exec_loopOpen_push hz hd] at h
      cases h
      exact .inr (.inr (.inl ⟨hz, hd, rfl⟩))
    · rw [exec_loopOpen_overflow hz (Nat.le_of_not_lt hd)] at h
      cases h
      exact .inr (.inr (.inr ⟨hz, Nat.le_of_not_lt hd, rfl⟩))

/-- The cases of `]` (41_loop_control.md R79). -/
theorem exec_loopClose_empty {s : State} (h : s.lstack = []) :
    exec .loopClose s = .next (s.raise .unbalancedBracket) := by
  simp [exec, execLoopClose, State.top?, h]

theorem exec_loopClose_back {s : State} {base : List Nat} {p : Nat} (h : s.lstack = base ++ [p]) (hz : s.cell ≠ 0) :
    exec .loopClose s = .next (s.goto (p + 1)) := by
  simp [exec, execLoopClose, State.top?, h, State.cellIsZero_eq_false hz]

theorem exec_loopClose_exit {s : State} {base : List Nat} {p : Nat} (h : s.lstack = base ++ [p]) (hz : s.cell = 0) :
    exec .loopClose s = .next s.pop.advance := by
  simp [exec, execLoopClose, State.top?, h, State.cellIsZero, hz]

/-- Everything `]` can do. -/
theorem exec_loopClose_cases {s t : State} (h : exec .loopClose s = .next t) :
    (s.lstack = [] ∧ t = s.raise .unbalancedBracket) ∨
    (∃ base p, s.lstack = base ++ [p] ∧ s.cell ≠ 0 ∧ t = s.goto (p + 1)) ∨
    (∃ base p, s.lstack = base ++ [p] ∧ s.cell = 0 ∧ t = s.pop.advance) := by
  rcases List.eq_nil_or_concat s.lstack with hl | ⟨base, p, hl⟩
  · rw [exec_loopClose_empty hl] at h
    cases h
    exact .inl ⟨hl, rfl⟩
  · rw [List.concat_eq_append] at hl
    by_cases hz : s.cell = 0
    · rw [exec_loopClose_exit hl hz] at h
      cases h
      exact .inr (.inr ⟨base, p, hl, hz, rfl⟩)
    · rw [exec_loopClose_back hl hz] at h
      cases h
      exact .inr (.inl ⟨base, p, hl, hz, rfl⟩)

/-! ### The input -/

/-- An answered read writes the current cell, or at end of input does what EOF_POLICY says, and touches nothing but the
tape (42_io.md R86). -/
theorem State.receive_eq (s : State) (a : InAnswer) : s.receive a = { s with tape := (s.receive a).tape } := by
  cases a with
  | byte b => rfl
  | eof => cases h : s.cfg.eofPolicy <;> simp [State.receive, h, State.setCell]

/-- Whatever the answer, only the current cell can change. -/
theorem State.receive_other (s : State) (a : InAnswer) {i : Nat} (h : i ≠ s.dp) :
    Memory.read (s.receive a).tape i = Memory.read s.tape i := by
  have key : ∀ v, Memory.read (s.setCell v).tape i = Memory.read s.tape i := fun v => by
    rw [State.setCell_tape, Memory.read_write_other _ _ h]
  cases a with
  | byte b => exact key b
  | eof =>
    cases hp : s.cfg.eofPolicy
    · simp [State.receive, hp]
    · simp only [State.receive, hp]
      exact key 0

/-! A read leaves every field but the tape. -/

@[simp] theorem State.receive_pc (s : State) (a : InAnswer) : (s.receive a).pc = s.pc := by
  rw [State.receive_eq]
@[simp] theorem State.receive_dp (s : State) (a : InAnswer) : (s.receive a).dp = s.dp := by
  rw [State.receive_eq]
@[simp] theorem State.receive_lstack (s : State) (a : InAnswer) : (s.receive a).lstack = s.lstack := by
  rw [State.receive_eq]
@[simp] theorem State.receive_phase (s : State) (a : InAnswer) : (s.receive a).phase = s.phase := by
  rw [State.receive_eq]
@[simp] theorem State.receive_status (s : State) (a : InAnswer) : (s.receive a).status = s.status := by
  rw [State.receive_eq]
@[simp] theorem State.receive_ctl (s : State) (a : InAnswer) : (s.receive a).ctl = s.ctl := by
  rw [State.receive_eq]
@[simp] theorem State.receive_scan (s : State) (a : InAnswer) : (s.receive a).scan = s.scan := by
  rw [State.receive_eq]
@[simp] theorem State.receive_sdepth (s : State) (a : InAnswer) : (s.receive a).sdepth = s.sdepth := by
  rw [State.receive_eq]
@[simp] theorem State.receive_inp (s : State) (a : InAnswer) : (s.receive a).inp = s.inp := by
  rw [State.receive_eq]
@[simp] theorem State.receive_out (s : State) (a : InAnswer) : (s.receive a).out = s.out := by
  rw [State.receive_eq]
@[simp] theorem State.receive_prog (s : State) (a : InAnswer) : (s.receive a).prog = s.prog := by
  rw [State.receive_eq]
@[simp] theorem State.receive_cfg (s : State) (a : InAnswer) : (s.receive a).cfg = s.cfg := by
  rw [State.receive_eq]

/-- An answered read keeps the tape canonical. -/
theorem State.receive_wf {s : State} (a : InAnswer) (hd : s.dp < s.cfg.tapeSize)
    (h : Memory.wf s.cfg.tapeSize s.tape) : Memory.wf s.cfg.tapeSize (s.receive a).tape := by
  cases a with
  | byte b => exact State.setCell_wf b hd h
  | eof =>
    cases hp : s.cfg.eofPolicy
    · simpa [State.receive, hp] using h
    · simp only [State.receive, hp]
      exact State.setCell_wf 0 hd h

/-! ### Runs -/

@[simp] theorem runFor_zero (s : State) : runFor 0 s = .next s := rfl

theorem runFor_succ {s t : State} (n : Nat) (h : step s = .next t) : runFor (n + 1) s = runFor n t := by
  simp [runFor, h]

/-- Runs compose. -/
theorem runFor_add {s t : State} {m : Nat} (n : Nat) (h : runFor m s = .next t) :
    runFor (m + n) s = runFor n t := by
  induction m generalizing s with
  | zero =>
    cases h
    simp
  | succ m ih =>
    rw [Nat.add_right_comm]
    cases hs : step s with
    | next u =>
      rw [runFor_succ _ hs] at h ⊢
      exact ih h
    | fault r => simp [runFor, hs] at h
    | refused r => simp [runFor, hs] at h

theorem Reaches.refl (s : State) : Reaches s s := ⟨0, rfl⟩

theorem Reaches.trans {s t u : State} (h : Reaches s t) (h' : Reaches t u) : Reaches s u := by
  obtain ⟨m, hm⟩ := h
  obtain ⟨n, hn⟩ := h'
  exact ⟨m + n, (runFor_add n hm).trans hn⟩

theorem Reaches.step {s t : State} (h : step s = .next t) : Reaches s t := ⟨1, by simp [runFor, h]⟩

end Sys2Proof.Machine
end

