-- ==== Sys2Proof/Tests/Slice0.lean ====
section
/-! SUPPORT. Tests of the model, and a witness for every statement that has hypotheses. Expected values come from the
spec: the opcode map (30_encoding.md R61), the rules' own examples and the vectors of spec/95_test_vectors.md, named in
each test. -/

namespace Sys2Proof.Tests
open Sys2Proof Sys2Proof.Machine

/-! ### Helpers -/

/-- The next state of an outcome. -/
def result : Host.Outcome State Fault Refusal → Option State
  | .next s => some s
  | .fault _ => none
  | .refused _ => none

/-- A build with a small MAX_CODESIZE. -/
def small (n : Nat) : Config := { maxCodeSize := n, pageSize := 1 }

/-- An audited build: a tape of 3 cells and a stack of 1 entry. -/
def audited : Config := { Config.standard with tapeSize := 3, stackCap := 1 }

/-- The reset state with a program. -/
def onProg (prog : List Byte) : State := State.resetWith Config.standard prog []

/-- A state at `pc` with the current cell `v` and the stack `st`. -/
def atCell (prog : List Byte) (pc : Nat) (v : Byte) (st : List Nat) : State :=
  { (onProg prog).setCell v with pc := pc, lstack := st }

/-- Input left and the end-of-input policy set. -/
def withInput (s : State) (inp : List Byte) (p : EofPolicy) : State :=
  { s with inp := inp, cfg := { s.cfg with eofPolicy := p } }

/-! ### Well-formedness: the one check, and what it refuses -/

theorem test_wellFormed_nop : (Instr.nop 0x61).wellFormed = true := by decide
theorem test_illFormed_nop_plus : (Instr.nop 0x2B).wellFormed = false := by decide
theorem test_illFormed_nop_zero : (Instr.nop 0x00).wellFormed = false := by decide

/-! ### Decoding: words written out from 30_encoding.md R61 -/

theorem test_decode_right : decodeByte 0b00111110 = .right := by decide
theorem test_decode_left : decodeByte 0b00111100 = .left := by decide
theorem test_decode_inc : decodeByte 0b00101011 = .inc := by decide
theorem test_decode_dec : decodeByte 0b00101101 = .dec := by decide
theorem test_decode_loopOpen : decodeByte 0b01011011 = .loopOpen := by decide
theorem test_decode_loopClose : decodeByte 0b01011101 = .loopClose := by decide
theorem test_decode_output : decodeByte 0b00101110 = .output := by decide
theorem test_decode_input : decodeByte 0b00101100 = .input := by decide
theorem test_decode_halt : decodeByte 0b00000000 = .halt := by decide
theorem test_decode_nop_high : decodeByte 0b11111111 = .nop 0xFF := by decide

/-! ### The data pointer and the cell (95_test_vectors.md 2.1) -/

/-- V2, 40_pointer_cell.md R69's example. -/
theorem test_right_wraps :
    (result (exec .right { onProg [] with dp := 65535, pc := 7 })).map (fun t => (t.dp, t.pc)) = some (0, 8) := by
  decide

/-- V10. -/
theorem test_right_leaves_cells :
    (result (exec .right { onProg [] with dp := 3, tape := [(3, 9)] })).map (fun t => (t.dp, t.tape)) =
      some (4, [(3, 9)]) := by
  decide

/-- V4, R70's example. -/
theorem test_left_wraps :
    (result (exec .left (onProg []))).map (fun t => (t.dp, t.pc)) = some (65535, 1) := by
  decide

/-- R69 and R70 with TAPE_SIZE = 3 (D22): the wrap is the build's. -/
theorem test_pointer_wraps_at_tapeSize :
    (result (exec .right { State.resetWith audited [] [] with dp := 2 })).map State.dp = some 0 ∧
    (result (exec .left (State.resetWith audited [] []))).map State.dp = some 2 := by
  decide

/-- V6: 255 becomes 0, and the canonical tape lists no 0. -/
theorem test_inc_wraps :
    (result (exec .inc { onProg [] with tape := [(0, 255)] })).map (fun t => (t.tape, t.pc)) = some ([], 1) := by
  decide

/-- V9: the last cell is a normal cell. -/
theorem test_inc_last_cell :
    (result (exec .inc { onProg [] with dp := 65535 })).map State.tape = some [(65535, 1)] := by
  decide

/-- V7. -/
theorem test_dec_wraps : (result (exec .dec (onProg []))).map State.tape = some [(0, 255)] := by decide

/-! ### Loops (95_test_vectors.md 2.2) -/

/-- L1: the push is of the position of the `[` itself. -/
theorem test_open_pushes_pc :
    (result (exec .loopOpen (atCell [] 5 1 []))).map (fun t => (t.pc, t.lstack)) = some (6, [5]) := by
  decide

/-- S6: the whole nested structure `[[-][+[-]]]` is skipped. -/
theorem test_open_skips_nested :
    (result (step (onProg [0x5B, 0x5B, 0x2D, 0x5D, 0x5B, 0x2B, 0x5B, 0x2D, 0x5D, 0x5D, 0x5D, 0x2B]))).map
      (fun t => (t.pc, t.lstack, t.phase)) = some (11, [], .running) := by
  decide

/-- L8: a terminator stops the scan. -/
theorem test_skip_stops_at_terminator :
    (result (step (onProg [0x5B, 0x00, 0x5D]))).map (fun t => (t.pc, t.phase, t.status)) =
      some (0, .faulted, 5) := by
  decide

/-- L3: a push on a full stack is the precise fatal error 4. -/
theorem test_open_overflows :
    exec .loopOpen (atCell [] 4096 1 (List.replicate 4096 0)) =
      .next ((atCell [] 4096 1 (List.replicate 4096 0)).raise .controlStackOverflow) :=
  exec_loopOpen_overflow (by decide) (Nat.le_of_eq (List.length_replicate (n := 4096) (a := 0)).symm)

/-- R77 with STACK_CAP = 1 (D22): one entry is room enough for one loop and no more. -/
theorem test_open_overflows_at_stackCap :
    (result (exec .loopOpen { atCell [] 5 1 [] with cfg := audited })).map State.lstack = some [5] ∧
    (result (exec .loopOpen { atCell [] 5 1 [2] with cfg := audited })).map (fun t => (t.lstack, t.pc, t.status)) =
      some ([2], 5, 4) := by
  decide

/-- L11: back to one past the top, no pop. -/
theorem test_close_continues :
    (result (exec .loopClose (atCell [] 9 2 [1, 3]))).map (fun t => (t.pc, t.lstack)) = some (4, [1, 3]) := by
  decide

/-- L12: a pop, and on. -/
theorem test_close_exits :
    (result (exec .loopClose (atCell [] 9 0 [1, 3]))).map (fun t => (t.pc, t.lstack)) = some (10, [1]) := by
  decide

/-- L14: an empty stack, zero cell. -/
theorem test_close_unbalanced :
    (result (exec .loopClose (onProg [0x5D]))).map (fun t => (t.pc, t.phase, t.status)) = some (0, .faulted, 5) := by
  decide

/-! ### The streams (95_test_vectors.md 2.3) -/

/-- IO2: a zero byte is written like any other, at the end. -/
theorem test_output_appends :
    (result (exec .output { onProg [] with out := [0x07] })).map State.out = some [0x07, 0x00] := by
  decide

/-- IO3. -/
theorem test_input_reads :
    (result (exec .input (withInput (atCell [] 0 5 []) [0x7F, 0x01] .keep))).map (fun t => (t.tape, t.inp)) =
      some ([(0, 0x7F)], [0x01]) := by
  decide

/-- IO5 and IO6: the two policies at end of input. -/
theorem test_input_eof :
    (result (exec .input (withInput (atCell [] 0 5 []) [] .keep))).map State.tape = some [(0, 5)] ∧
    (result (exec .input (withInput (atCell [] 0 5 []) [] .zero))).map State.tape = some [] := by
  decide

/-! ### The end of a run (95_test_vectors.md 2.4, 2.5) -/

/-- 43_halt_nop.md R89's example at its last step: `+\0+` halts with `pc = 1` and status 0. -/
theorem test_halt_keeps_pc :
    (result (step (atCell [0x2B, 0x00, 0x2B] 1 1 []))).map (fun t => (t.pc, t.phase, t.status, t.tape)) =
      some (1, .halted, 0, [(0, 1)]) := by
  decide

/-- H3, one step: a byte outside the set changes only `pc`. -/
theorem test_nop_advances :
    (result (step (onProg [0x80, 0x2B]))).map (fun t => (t.pc, t.tape, t.phase)) = some (1, [], .running) := by
  decide

/-- H1: an empty program halts at its first step. -/
theorem test_end_of_buffer :
    (result (step (onProg []))).map (fun t => (t.pc, t.phase, t.status)) = some (0, .halted, 0) := by
  decide

/-- E3: too large comes before everything else; E2: as long as MAX_CODESIZE is allowed. -/
theorem test_too_large_first :
    (result (step (State.resetWith (small 2) [0x5D, 0x2B, 0x2B] []))).map (fun t => (t.pc, t.phase, t.status)) =
      some (0, .faulted, 3) ∧
    (result (step (State.resetWith (small 2) [0x2B, 0x2B] []))).map (fun t => (t.pc, t.phase)) =
      some (1, .running) := by
  decide

/-- The fetch beyond the end of the program, in a state no run reaches. -/
theorem test_fetch_outside : step { onProg [] with pc := 1 } = .fault .fetchOutsideProgram := rfl

/-- A table word placed in the reset state is the first instruction to run. -/
theorem test_placed_word : (result (step (State.reset.withFetchWord 8 0x2B))).map State.tape = some [(0, 1)] := by
  decide

/-! ### The controller (95_test_vectors.md 2.6) -/

/-- T3: `[[]` with a zero cell takes 4 cycles, the last of which raises the error. -/
theorem test_skip_cycles :
    (result (cycles (List.replicate 3 Pins.idle) (onProg [0x5B, 0x5B, 0x5D]))).map State.phase = some .running ∧
    (result (cycles (List.replicate 4 Pins.idle) (onProg [0x5B, 0x5B, 0x5D]))).map State.status = some 5 := by
  decide

/-- IO8: no change while the host is slow, then the byte is out. -/
theorem test_output_waits :
    (result (cycles [Pins.idle, Pins.idle] (atCell [0x2E] 0 0x41 []))).map (fun t => (t.out, t.pc, t.outByte)) =
      some ([], 0, some 0x41) ∧
    (result (cycles [Pins.idle, Pins.ready] (atCell [0x2E] 0 0x41 []))).map (fun t => (t.out, t.pc)) =
      some ([0x41], 1) := by
  decide

/-- C10: with MAX_CODESIZE 3 the port is 3 bits wide, and a longer length shows as all ones. -/
theorem test_prog_len_all_ones : (progLenPort (small 3) 8).toNat = 7 ∧ (progLenPort (small 3) 3).toNat = 3 := by
  decide

/-! ### Witnesses: states and operands that meet the hypotheses of each statement that has any

A statement with several clauses has a witness for each, at a boundary of its range where it has one. -/

/-- The loop `[-]` in its body: one active loop, at the `]`. -/
def inLoop (v : Byte) : State := atCell [0x5B, 0x2D, 0x5D] 2 v [0]

/-- A run of `[[]` in the middle of the skip of its first `[`. -/
def inSkip : State := { onProg [0x5B, 0x5B, 0x5D] with ctl := .skip, scan := 2, sdepth := 2 }

/-- `,` and `.` waiting for the host. -/
def inWait (b : Byte) (c : Ctl) : State := { onProg [b] with ctl := c }

/-- A run that ended with UnbalancedBracket. -/
def faulted : State := (onProg [0x5D]).raise .unbalancedBracket

theorem witness_RunInv : RunInv (inLoop 1) where
  pcInProgram := by decide
  dpOnTape := by decide
  tapeCanonical := by decide
  depthBounded := by decide
  nested := by
    refine ⟨rfl, by decide, ⟨by unfold SameCount; decide, fun k => ?_⟩, trivial⟩
    cases k with
    | zero => decide
    | succ k => simp [between, inLoop, atCell, onProg, State.resetWith, Opcode.loopClose, Opcode.loopOpen]
  statusRight := rfl
  oversizeAtStart := by decide

theorem witness_InFlight_skip : InFlight inSkip :=
  ⟨rfl, rfl, by decide, by decide, by decide, by decide, rfl⟩

theorem witness_PcWidthIsLeast : ∀ v ≤ (small 4).maxCodeSize, v < 2 ^ 3 := by decide

theorem witness_ProgLenPortShowsOversize :
    3 ≤ (small 3).maxCodeSize ∧ (small 3).maxCodeSize < 4 := by
  decide

theorem witness_StatusPortsShowTheRun :
    (onProg []).done = false ∧ faulted.done = true ∧ (onProg []).halt.done = true ∧ RunInv (inLoop 1) :=
  ⟨by decide, by decide, by decide, witness_RunInv⟩

theorem witness_ProgramReadsStayInside :
    (onProg [0x2B]).progAddr = some 0 ∧ inSkip.progAddr = some 2 := by
  decide

/-- Another program with the same byte where the cycle reads, in EXEC and in SKIP. -/
theorem witness_ProgramReadsStayInside_others :
    (Pins.ready.rst = none ∧ ([0x2B, 0xFF] : List Byte).length = (onProg [0x2B, 0x00]).len ∧
      ([0x2B, 0xFF] : List Byte)[0]? = (onProg [0x2B, 0x00]).prog[0]? ∧
      cycle Pins.ready (onProg [0x2B, 0x00]) = .next ((onProg [0x2B, 0x00]).setCell 1).advance) ∧
    (([0, 0, 0x5D] : List Byte).length = inSkip.len ∧ ([0, 0, 0x5D] : List Byte)[2]? = inSkip.prog[2]? ∧
      cycle Pins.ready inSkip = .next (inSkip.setScanner 3 1)) :=
  ⟨⟨rfl, rfl, rfl, rfl⟩, rfl, rfl, rfl⟩

theorem witness_ResetDiscardsTheRun :
    ∃ (p : Pins) (l : Load) (s s' : State), p.rst = some l ∧ s.cfg = s'.cfg ∧ s ≠ s' :=
  ⟨⟨some ⟨[0x2B], []⟩, false, false⟩, ⟨[0x2B], []⟩, inLoop 1, faulted, rfl, rfl, by decide⟩

theorem witness_OpcodeRowsPartitionBytes :
    (Instr.nop 0x61).wellFormed = true ∧ (Instr.nop 0x61).row.holds 0x62 = true := by
  decide

theorem witness_ProgramTextRoundTrip :
    (∀ i ∈ [Instr.loopOpen, .nop 0xFF, .halt], i.wellFormed = true) ∧ Instr.halt.wellFormed = true := by
  decide

theorem witness_StepRunsDecodedInstruction :
    let s := State.resetWith (small 1) [0x3E] []
    s.phase = .running ∧ s.len ≤ s.cfg.maxCodeSize ∧ s.prog[s.pc]? = some 0x3E := by
  decide

theorem witness_StepChecksInOrder :
    (let s := State.resetWith (small 1) [0x3E, 0x3E] []
     s.phase = .running ∧ s.cfg.maxCodeSize < s.len) ∧
    (let s := { State.resetWith (small 1) [0x3E] [] with pc := 1 }
     s.phase = .running ∧ s.len ≤ s.cfg.maxCodeSize ∧ s.pc = s.len) ∧
    (let s := State.resetWith (small 1) [0x3E] []
     s.phase = .running ∧ s.len ≤ s.cfg.maxCodeSize ∧ s.pc < s.len) := by
  decide

theorem witness_PlacedWordRuns :
    (let s := State.resetWith (small 1) [] []
     s.len ≤ s.cfg.maxCodeSize ∧ s.pc < s.cfg.maxCodeSize) ∧
    (let s := { State.resetWith (small 2) [0x2B, 0x2B] [] with pc := 1 }
     s.len ≤ s.cfg.maxCodeSize ∧ s.pc < s.cfg.maxCodeSize) := by
  decide

theorem witness_NothingStopsTheMachine : (atCell [0x2B] 1 0 []).pc ≤ (atCell [0x2B] 1 0 []).len := by decide

theorem witness_NextPcOfEveryStep :
    (inLoop 1).phase = .running ∧ step (inLoop 1) = .next ((inLoop 1).goto 1) := ⟨rfl, rfl⟩

theorem witness_OnlyNamedInstructionsWrite : exec .right (inLoop 1) = .next ((inLoop 1).setDp 1).advance := rfl

theorem witness_OnlyTheCurrentCellIsSeen :
    Memory.read [(0, 1), (7, 9)] (inLoop 1).dp = (inLoop 1).cell ∧ (inLoop 1).tape ≠ [(0, 1), (7, 9)] := by
  decide

theorem witness_ProgramIsImmutable :
    step (onProg [0x3E]) = .next ((onProg [0x3E]).setDp 1).advance ∧ Pins.ready.rst = none ∧
      cycle Pins.ready (onProg [0x3E]) = .next ((onProg [0x3E]).setDp 1).advance :=
  ⟨rfl, rfl, rfl⟩

theorem witness_StreamsMoveInOrder :
    step (onProg [0x2E]) = .next ((onProg [0x2E]).outWrite 0).advance ∧
    step (withInput (onProg [0x2C]) [0x41] .keep) =
      .next ((withInput (onProg [0x2C]) [] .keep).setCell 0x41).advance :=
  ⟨rfl, rfl⟩

theorem witness_PointerMovesWrap :
    0 < (onProg [0x3C]).cfg.tapeSize ∧ 0 < (State.resetWith audited [] []).cfg.tapeSize := by
  decide

theorem witness_NetDisplacementLaws_pointer :
    let s := onProg [0x3E, 0x3C, 0x3C, 0x2B]
    (∀ i ∈ [Instr.right, .left, .left], i = .right ∨ i = .left) ∧ s.phase = .running ∧ s.dp < s.cfg.tapeSize ∧
      s.len ≤ s.cfg.maxCodeSize ∧ s.prog.drop s.pc = assemble [.right, .left, .left] ++ [0x2B] := by
  decide

theorem witness_NetDisplacementLaws_cell :
    let s := onProg [0x2B, 0x2D, 0x2D, 0x2E]
    (∀ i ∈ [Instr.inc, .dec, .dec], i = .inc ∨ i = .dec) ∧ s.phase = .running ∧
      s.len ≤ s.cfg.maxCodeSize ∧ s.prog.drop s.pc = assemble [.inc, .dec, .dec] ++ [0x2E] := by
  decide

theorem witness_SkipFindsExactlyTheMatch : skipMatch [0x5B, 0x5B, 0x5D, 0x5D] 0 = .found 3 := by decide

theorem witness_SkipRunsOffOnlyAtTheEnd :
    skipMatch [0x5B, 0x5B] 0 = .runOff 2 2 ∧ skipMatch [0x5B, 0x00] 0 = .runOff 1 1 ∧
      0 < ([0x5B, 0x5B] : List Byte).length := by
  decide

/-- The four cases of `[`, the last two at the last free entry and at the full stack (L2, L3). -/
theorem witness_OpenEntersOrSkips :
    ((onProg [0x5B, 0x5D]).cell = 0 ∧ skipMatch (onProg [0x5B, 0x5D]).prog 0 = .found 1) ∧
    ((onProg [0x5B]).cell = 0 ∧ skipMatch (onProg [0x5B]).prog 0 = .runOff 1 1) ∧
    ((atCell [] 0 1 (List.replicate 4095 0)).cell ≠ 0 ∧
      (atCell [] 0 1 (List.replicate 4095 0)).depth < Config.standard.stackCap) ∧
    ((atCell [] 0 1 (List.replicate 4096 0)).cell ≠ 0 ∧
      (atCell [] 0 1 (List.replicate 4096 0)).depth = Config.standard.stackCap) :=
  ⟨by decide, by decide, ⟨by decide, Nat.lt_of_le_of_lt (Nat.le_of_eq (List.length_replicate (n := 4095) (a := 0)))
    (by decide)⟩, ⟨by decide, List.length_replicate (n := 4096) (a := 0)⟩⟩

theorem witness_LandedCloseIsNotExecuted :
    fetch (onProg [0x5B, 0x5D]) = .instr .loopOpen ∧ (onProg [0x5B, 0x5D]).cell = 0 ∧
      skipMatch (onProg [0x5B, 0x5D]).prog 0 = .found 1 := by
  decide

theorem witness_CloseLoopsOrExits :
    (onProg [0x5D]).depth = 0 ∧ ((inLoop 1).lstack = [] ++ [0] ∧ (inLoop 1).cell ≠ 0) ∧
      ((inLoop 0).lstack = [] ++ [0] ∧ (inLoop 0).cell = 0) := by
  decide

/-- `[-]` on a cell of 1: one pass through the body, after which the cell is 0; on a cell of 2: two passes; and the `[`
on a zero cell. -/
theorem witness_LoopRunsAsWhile :
    (let s := atCell [0x5B, 0x2D, 0x5D] 0 1 []
     fetch s = .instr .loopOpen ∧ s.depth < s.cfg.stackCap ∧ skipMatch s.prog s.pc = .found 2 ∧ s.cell ≠ 0 ∧
       WhilePasses s.pc 2 s.lstack (s.push s.pc).advance (inLoop 0)) ∧
    (let s := atCell [0x5B, 0x2D, 0x5D] 0 2 []
     fetch s = .instr .loopOpen ∧ s.depth < s.cfg.stackCap ∧ skipMatch s.prog s.pc = .found 2 ∧ s.cell ≠ 0 ∧
       WhilePasses s.pc 2 s.lstack (s.push s.pc).advance (inLoop 0)) ∧
    (let s := atCell [0x5B, 0x2D, 0x5D] 0 0 []
     fetch s = .instr .loopOpen ∧ s.depth < s.cfg.stackCap ∧ skipMatch s.prog s.pc = .found 2 ∧ s.cell = 0) :=
  ⟨⟨by decide, by decide, by decide, by decide,
    .last _ _ ⟨rfl, rfl, ⟨1, rfl⟩, rfl, rfl, rfl⟩ rfl⟩,
    ⟨by decide, by decide, by decide, by decide,
      .again _ (inLoop 1) _ ⟨rfl, rfl, ⟨1, rfl⟩, rfl, rfl, rfl⟩ (by decide)
        (.last _ _ ⟨rfl, rfl, ⟨1, rfl⟩, rfl, rfl, rfl⟩ rfl)⟩, by decide, by decide, by decide, by decide⟩

theorem witness_SelfLoopNeverEnds :
    let s := atCell [0x2B, 0x5B, 0x5D] 2 1 [1]
    fetch s = .instr .loopClose ∧ s.lstack = [] ++ [1] ∧ s.pc = 1 + 1 ∧ s.cell ≠ 0 := by
  decide

theorem witness_InputFillsTheCell :
    (withInput (onProg []) [0x00] .keep).inp = 0x00 :: [] ∧
    ((withInput (onProg []) [] .keep).inp = [] ∧ (withInput (onProg []) [] .keep).cfg.eofPolicy = .keep) ∧
    ((withInput (onProg []) [] .zero).inp = [] ∧ (withInput (onProg []) [] .zero).cfg.eofPolicy = .zero) := by
  decide

theorem witness_EchoWritesTheByteRead :
    let s := withInput (onProg [0x2C, 0x2E]) [0x00] .keep
    s.phase = .running ∧ s.len ≤ s.cfg.maxCodeSize ∧ s.prog[s.pc]? = some 0x2C ∧ s.prog[s.pc + 1]? = some 0x2E ∧
      s.inp = 0x00 :: [] := by
  decide

theorem witness_NopOnlyAdvances : (Instr.nop 0x01).wellFormed = true ∧ (Instr.nop 0xFF).wellFormed = true := by decide

theorem witness_EndOfBufferHalts :
    let s := atCell [0x2B, 0x5B] 2 1 [1]
    s.phase = .running ∧ s.len ≤ s.cfg.maxCodeSize ∧ s.pc = s.len ∧ s.depth = 1 := by
  decide

theorem witness_FatalErrorsArePrecise :
    (onProg [0x5D]).phase = .running ∧ step (onProg [0x5D]) = .next faulted ∧ faulted.phase = .faulted :=
  ⟨rfl, rfl, rfl⟩

/-- Each cause of a fatal error, and a step that raises none. -/
theorem witness_FatalErrorsHaveTheirCauses :
    (let s := State.resetWith (small 1) [0x5D, 0x5D] []
     s.phase = .running ∧ s.depth ≤ s.cfg.stackCap ∧ step s = .next (s.raise .programTooLarge) ∧
       s.cfg.maxCodeSize < s.len) ∧
    (let s := atCell [0x5B] 0 1 (List.replicate 4096 0)
     s.phase = .running ∧ s.depth ≤ s.cfg.stackCap ∧ fetch s = .instr .loopOpen ∧ s.cell ≠ 0 ∧ s.depth = s.cfg.stackCap) ∧
    (step (onProg [0x5D]) = .next faulted ∧ fetch (onProg [0x5D]) = .instr .loopClose) ∧
    (fetch (onProg [0x5B]) = .instr .loopOpen ∧ skipMatch (onProg [0x5B]).prog 0 = .runOff 1 1) ∧
    step (inLoop 1) = .next ((inLoop 1).goto 1) :=
  ⟨⟨rfl, by decide, rfl, by decide⟩,
    ⟨rfl, Nat.le_of_eq (List.length_replicate (n := 4096) (a := 0)), rfl, by decide,
      List.length_replicate (n := 4096) (a := 0)⟩,
    ⟨rfl, rfl⟩, ⟨rfl, rfl⟩, rfl⟩

theorem witness_EndedRunIsFrozen :
    faulted.phase ≠ .running ∧ (onProg []).halt.phase ≠ .running ∧ InFlight faulted ∧
      ∀ p ∈ [Pins.idle, Pins.ready], p.rst = none :=
  ⟨by decide, by decide, (by decide : faulted.phase ≠ .running), by decide⟩

theorem witness_RunInvAtReset : Config.standard.wf ∧ audited.wf := by decide

theorem witness_EveryRunGoesOnInside : (small 1).wf := by decide

theorem witness_RunInvKeptByEveryStep : RunInv (inLoop 1) ∧ step (inLoop 1) = .next ((inLoop 1).goto 1) :=
  ⟨witness_RunInv, rfl⟩

theorem witness_LiveEntriesPointAtOpens : RunInv (inLoop 1) ∧ 0 ∈ (inLoop 1).lstack := ⟨witness_RunInv, by decide⟩

theorem witness_PositionsFitTheirWidth : RunInv (inLoop 1) ∧ 0 ∈ (inLoop 1).lstack := ⟨witness_RunInv, by decide⟩

/-- An invariant state with an active loop, and a run from reset into one: `+[` after two steps. -/
theorem witness_StackTopIsTheMatch :
    RunInv (inLoop 1) ∧ (inLoop 1).lstack = [] ++ [0] ∧ Config.standard.wf ∧
      ∃ t, runFor 2 (State.resetWith Config.standard [0x2B, 0x5B] []) = .next t ∧ t.lstack = [] ++ [1] :=
  ⟨witness_RunInv, rfl, by decide, _, rfl, rfl⟩

/-- A cycle from each state of the controller: one that completes a step, and one that leaves it to come. -/
theorem witness_CycleCompletesOrAwaitsTheStep :
    Pins.ready.rst = none ∧
    (InFlight (onProg [0x2B]) ∧ cycle Pins.ready (onProg [0x2B]) = step (onProg [0x2B])) ∧
    (InFlight inSkip ∧ cycle Pins.ready inSkip = .next (inSkip.setScanner 3 1)) ∧
    (InFlight (inWait 0x2C .waitIn) ∧ cycle Pins.idle (inWait 0x2C .waitIn) = .next (inWait 0x2C .waitIn)) ∧
    (InFlight (inWait 0x2E .waitOut) ∧ cycle Pins.ready (inWait 0x2E .waitOut) = step (onProg [0x2E])) ∧
    (InFlight faulted ∧ faulted.ctl = .done ∧ cycle Pins.ready faulted = .next faulted) :=
  ⟨rfl, ⟨rfl, rfl⟩, ⟨witness_InFlight_skip, rfl⟩, ⟨rfl, rfl⟩, ⟨rfl, rfl⟩,
    (by decide : faulted.phase ≠ .running), rfl, rfl⟩

theorem witness_ControllerRunFollowsTheSteps :
    (∀ p ∈ [Pins.idle, Pins.ready], p.rst = none) ∧ InFlight (onProg [0x2E]) ∧
      cycles [Pins.idle, Pins.ready] (onProg [0x2E]) = step (onProg [0x2E]) :=
  ⟨by decide, rfl, rfl⟩

/-- The four kinds of step. -/
theorem witness_CyclesOfEveryStep :
    (let s := onProg [0x5B, 0x5D]
     s.ctl = .exec ∧ s.phase = .running ∧ step s = .next ((s.setScanner 1 1).goto 2) ∧
       fetch s = .instr .loopOpen ∧ s.cell = 0 ∧ skipMatch s.prog s.pc = .found 1) ∧
    (let s := onProg [0x5B]
     s.ctl = .exec ∧ s.phase = .running ∧ step s = .next ((s.setScanner 1 1).raise .unbalancedBracket) ∧
       fetch s = .instr .loopOpen ∧ s.cell = 0 ∧ skipMatch s.prog s.pc = .runOff 1 1) ∧
    (let s := onProg [0x2E]
     s.ctl = .exec ∧ s.phase = .running ∧ step s = .next (s.outWrite 0).advance ∧ fetch s = .instr .output) ∧
    (let s := onProg [0x2C]
     s.ctl = .exec ∧ s.phase = .running ∧ step s = .next s.advance ∧ fetch s = .instr .input) ∧
    (let s := atCell [0x5B] 0 1 []
     s.ctl = .exec ∧ s.phase = .running ∧ step s = .next (s.push 0).advance ∧ fetch s ≠ .instr .input ∧
       fetch s ≠ .instr .output ∧ s.cell ≠ 0) :=
  ⟨⟨rfl, rfl, rfl, rfl, rfl, rfl⟩, ⟨rfl, rfl, rfl, rfl, rfl, rfl⟩, ⟨rfl, rfl, rfl, rfl⟩, ⟨rfl, rfl, rfl, rfl⟩,
    rfl, rfl, rfl, by decide, by decide, by decide⟩

theorem witness_HoldsKeepTheState :
    (inWait 0x2C .waitIn).ctl = .waitIn ∧ (inWait 0x2E .waitOut).ctl = .waitOut := ⟨rfl, rfl⟩

theorem witness_WidthsFollowTheBuild : 0 < Config.standard.tapeSize ∧ 0 < audited.tapeSize := by decide

/-- `dp` at the last cell, and the stack at its last free entry. -/
theorem witness_StepsStayWithinTheBuild :
    (let s := { State.resetWith audited [0x3E] [] with dp := 2 }
     step s = .next (s.setDp 0).advance ∧ s.dp < s.cfg.tapeSize ∧ s.cfg.tapeSize ≤ 3) ∧
    (let s := { atCell [0x5B] 0 1 [] with cfg := audited }
     step s = .next (s.push 0).advance ∧ s.depth ≤ s.cfg.stackCap) :=
  ⟨⟨rfl, by decide, by decide⟩, rfl, by decide⟩

theorem witness_ScannerFitsItsWidth : InFlight inSkip ∧ inSkip.ctl = .skip := ⟨witness_InFlight_skip, rfl⟩

end Sys2Proof.Tests
end

section
/-! The widths that follow from a build (00_scope.md R5, R7, R9), and the bounds of the values they hold. -/

namespace Sys2Proof

/-- `widthFor n` bits hold `n`, and no smaller width does: what every fact about a width rests on. -/
theorem widthFor_le_iff (n w : Nat) : widthFor n ≤ w ↔ n < 2 ^ w := Nat.clog_le_iff_le_pow Nat.one_lt_two

/-- To hold every value up to `n` is to hold `n`. -/
theorem forall_le_lt_pow_iff (n w : Nat) : (∀ v ≤ n, v < 2 ^ w) ↔ widthFor n ≤ w := by
  rw [widthFor_le_iff]
  exact ⟨fun h => h n le_rfl, fun h v hv => hv.trans_lt h⟩

theorem lt_pow_widthFor {v n : Nat} (h : v ≤ n) : v < 2 ^ widthFor n :=
  (forall_le_lt_pow_iff n _).2 le_rfl v h

/-- A value with its top bit at position `w` takes `w + 1` bits. -/
theorem widthFor_eq_succ {n w : Nat} (hlo : 2 ^ w ≤ n) (hhi : n < 2 ^ (w + 1)) : widthFor n = w + 1 := by
  have hle : widthFor n ≤ w + 1 := (widthFor_le_iff n (w + 1)).2 hhi
  have hgt : ¬ widthFor n ≤ w := fun h => absurd ((widthFor_le_iff n w).1 h) (Nat.not_lt.2 hlo)
  omega

end Sys2Proof

namespace Sys2Proof.Machine

/-- Nested entries lie below `pc` (10_state.md R26): each lies below the next one up, and the top one below `pc`. -/
theorem Nested.entry_lt_pc {prog : List Byte} {pc : Nat} {l : List Nat} (h : Nested prog pc l) :
    ∀ t ∈ l, t < pc := by
  induction l with
  | nil => simp
  | cons t rest ih =>
    obtain ⟨-, htop, -, hrest⟩ := h
    have hbelow := ih hrest
    have ht : t < pc := by
      cases rest with
      | nil => exact htop
      | cons u rest => exact htop.trans (hbelow u List.mem_cons_self)
    exact List.forall_mem_cons.2 ⟨ht, hbelow⟩

/-- In a run `pc` is at most MAX_CODESIZE: it is inside the program, and a longer program never leaves its start. -/
theorem RunInv.pc_le_maxCodeSize {s : State} (h : RunInv s) : s.pc ≤ s.cfg.maxCodeSize := by
  by_cases hlen : s.cfg.maxCodeSize < s.len
  · rw [(h.oversizeAtStart hlen).1]
    exact Nat.zero_le _
  · exact h.pcInProgram.trans (Nat.le_of_not_lt hlen)

/-- What `InFlight` says of the scanner in SKIP: it is beyond `pc` and not beyond `len`, the depth is no greater than
the scan pointer, and the program is not too large, for its `[` has been fetched. -/
theorem InFlight.scanner_bounds {s : State} (h : InFlight s) (hc : s.ctl = .skip) :
    s.pc < s.scan ∧ s.scan ≤ s.len ∧ s.sdepth ≤ s.scan ∧ s.len ≤ s.cfg.maxCodeSize := by
  simp only [InFlight, hc] at h
  obtain ⟨hfetch, -, hpc, hscan, -, hdepth, -⟩ := h
  obtain ⟨-, hlen, -⟩ := (fetch_instr_iff s _).1 hfetch
  exact ⟨hpc, hscan, hdepth, hlen⟩

end Sys2Proof.Machine
end

section
/-! The obligations of the parameters of a build (00_scope.md). -/

namespace Sys2Proof.Proofs
open Sys2Proof Sys2Proof.Machine

/-- Settles O1: PC_W is `widthFor` MAX_CODESIZE, the least width of `forall_le_lt_pow_iff`. -/
theorem pcWidthIsLeast : Obligations.PcWidthIsLeast := fun cfg =>
  ⟨fun _ hv => lt_pow_widthFor hv, fun w hw => (forall_le_lt_pow_iff cfg.maxCodeSize w).1 hw, rfl⟩

/-- Settles O54: an index below TAPE_SIZE is one up to TAPE_SIZE - 1, as the tape has a cell; then both widths are the
least ones of `forall_le_lt_pow_iff`. -/
theorem widthsFollowTheBuild : Obligations.WidthsFollowTheBuild := by
  intro cfg hcell
  refine ⟨fun w => ?_, fun w => forall_le_lt_pow_iff cfg.stackCap w⟩
  have hindex : ∀ a, a < cfg.tapeSize ↔ a ≤ cfg.tapeSize - 1 := fun _ => Nat.lt_iff_le_pred hcell
  simp only [hindex]
  exact forall_le_lt_pow_iff (cfg.tapeSize - 1) w

/-- Settles O53: the five values are the defaults, 65535 has its top bit at position 15 and 4096 at position 12. -/
theorem defaultBuildHasTheSpecsValues : Obligations.DefaultBuildHasTheSpecsValues := by
  intro m p cfg
  have hdp : widthFor 65535 = 16 := widthFor_eq_succ (w := 15) (by decide) (by decide)
  have hdepth : widthFor 4096 = 13 := widthFor_eq_succ (w := 12) (by decide) (by decide)
  exact ⟨rfl, hdp, rfl, hdepth, rfl⟩

/-- Settles O6: the build is `Config.standard`, with MAX_CODESIZE 65536 and PAGE_SIZE 1. -/
theorem resetStateIsOfALegalBuild : Obligations.ResetStateIsOfALegalBuild :=
  ⟨Config.standard, by decide, rfl⟩

/-- Settles O45: each position is within the greatest value its width is made for; a live entry is, since it lies below
`pc`, and `dp`, since it is an index of the tape. -/
theorem positionsFitTheirWidth : Obligations.PositionsFitTheirWidth := by
  intro s h
  have hpc := h.pc_le_maxCodeSize
  refine ⟨hpc, lt_pow_widthFor hpc, fun t ht => ?_, h.dpOnTape, ?_, h.depthBounded, lt_pow_widthFor h.depthBounded⟩
  · exact lt_pow_widthFor ((h.nested.entry_lt_pc t ht).le.trans hpc)
  · exact lt_pow_widthFor (Nat.le_pred_of_lt h.dpOnTape)

/-- Settles O52: the skip depth is at most the scan pointer, that at most `len`, and that at most MAX_CODESIZE. -/
theorem scannerFitsItsWidth : Obligations.ScannerFitsItsWidth := by
  intro s h hc
  obtain ⟨hpc, hscan, hdepth, hlen⟩ := h.scanner_bounds hc
  have hdepthLen : s.sdepth ≤ s.len := hdepth.trans hscan
  exact ⟨hpc, hscan, hdepthLen, lt_pow_widthFor (hscan.trans hlen), lt_pow_widthFor (hdepthLen.trans hlen)⟩

end Sys2Proof.Proofs
end

section
/-! Which instruction a byte is, in the terms the proofs about brackets need: the decoder loses no byte
(30_encoding.md R62), so an instruction that a byte decodes to gives the byte back. -/

namespace Sys2Proof

/-- A byte is the byte of the instruction it decodes to. -/
theorem encodeByte_decodeByte (b : Byte) : encodeByte (decodeByte b) = b := by
  unfold decodeByte
  split_ifs with hright hleft hinc hdec hopen hclose hout hin hterm
  · exact hright.symm
  · exact hleft.symm
  · exact hinc.symm
  · exact hdec.symm
  · exact hopen.symm
  · exact hclose.symm
  · exact hout.symm
  · exact hin.symm
  · exact hterm.symm
  · rfl

theorem decodeByte_eq_loopOpen_iff (b : Byte) : decodeByte b = .loopOpen ↔ b = Opcode.loopOpen :=
  ⟨fun h => by rw [← encodeByte_decodeByte b, h, encodeByte], fun h => by rw [h]; decide⟩

theorem decodeByte_eq_loopClose_iff (b : Byte) : decodeByte b = .loopClose ↔ b = Opcode.loopClose :=
  ⟨fun h => by rw [← encodeByte_decodeByte b, h, encodeByte], fun h => by rw [h]; decide⟩

end Sys2Proof

namespace Sys2Proof.Machine

/-- The byte at `pc` when an instruction is fetched: inside the program, and a `[` or `]` exactly when the instruction
is. -/
theorem fetch_instr_byte {s : State} {i : Instr} (h : fetch s = .instr i) :
    s.pc < s.len ∧ ∃ b, s.prog[s.pc]? = some b ∧ (b = Opcode.loopOpen ↔ i = .loopOpen) ∧
      (b = Opcode.loopClose ↔ i = .loopClose) := by
  obtain ⟨-, -, b, hb, rfl⟩ := (fetch_instr_iff s _).1 h
  exact ⟨(List.getElem?_eq_some_iff.1 hb).1, b, hb, (decodeByte_eq_loopOpen_iff b).symm,
    (decodeByte_eq_loopClose_iff b).symm⟩

theorem prog_at_pc_of_fetch_loopOpen {s : State} (h : fetch s = .instr .loopOpen) :
    s.prog[s.pc]? = some Opcode.loopOpen := by
  obtain ⟨-, b, hb, hopen, -⟩ := fetch_instr_byte h
  rw [hb, hopen.2 rfl]

theorem prog_at_pc_of_fetch_loopClose {s : State} (h : fetch s = .instr .loopClose) :
    s.prog[s.pc]? = some Opcode.loopClose := by
  obtain ⟨-, b, hb, -, hclose⟩ := fetch_instr_byte h
  rw [hb, hclose.2 rfl]

end Sys2Proof.Machine
end

section
/-! What an instruction does to each part of the state (10_state.md R38): what it does to the data, given for every
instruction by one function for each part, and the ways it can move the control. -/

namespace Sys2Proof.Machine

/-! ### The data: `dp`, the tape and the streams -/

/-- `dp` after an instruction (40_pointer_cell.md R69, R70). -/
def State.dpAfter (s : State) : Instr → Nat
  | .right => nextPtr s.cfg.tapeSize s.dp
  | .left => prevPtr s.cfg.tapeSize s.dp
  | _ => s.dp

/-- What an instruction writes to the current cell, where it writes it (40_pointer_cell.md R71, R72; 42_io.md R86,
R87). -/
def State.cellWrite (s : State) : Instr → Option Byte
  | .inc => some (incByte s.cell)
  | .dec => some (decByte s.cell)
  | .input =>
    match s.inAnswer, s.cfg.eofPolicy with
    | .byte b, _ => some b
    | .eof, .keep => none
    | .eof, .zero => some 0
  | _ => none

/-- A tape with such a write done at cell `a`. -/
def writeCell (m : List Host.Cell) (a : Nat) : Option Byte → List Host.Cell
  | none => m
  | some v => Memory.write m a v

/-- The input left by an instruction (20_memory.md R45). -/
def State.inpAfter (s : State) : Instr → List Byte
  | .input => s.inp.tail
  | _ => s.inp

/-- The output with what an instruction writes to it (20_memory.md R46). -/
def State.outAfter (s : State) : Instr → List Byte
  | .output => s.out ++ [s.cell]
  | _ => s.out

/-- The state with the data as an instruction leaves them. -/
def State.dataAfter (s : State) (i : Instr) : State :=
  { s with
    dp := s.dpAfter i
    tape := writeCell s.tape s.dp (s.cellWrite i)
    inp := s.inpAfter i
    out := s.outAfter i }

theorem State.dpAfter_eq (s : State) {i : Instr} (hright : i ≠ .right) (hleft : i ≠ .left) : s.dpAfter i = s.dp := by
  cases i with
  | right => exact absurd rfl hright
  | left => exact absurd rfl hleft
  | _ => rfl

/-- The moves of `dp` stay on the tape (10_state.md R22). -/
theorem State.dpAfter_lt {s : State} (i : Instr) (h : s.dp < s.cfg.tapeSize) : s.dpAfter i < s.cfg.tapeSize := by
  cases i with
  | right => exact nextPtr_lt _ (Nat.zero_lt_of_lt h)
  | left => exact prevPtr_lt _ (Nat.zero_lt_of_lt h)
  | _ => exact h

theorem State.cellWrite_eq_none (s : State) {i : Instr} (hinc : i ≠ .inc) (hdec : i ≠ .dec) (hin : i ≠ .input) :
    s.cellWrite i = none := by
  cases i with
  | inc => exact absurd rfl hinc
  | dec => exact absurd rfl hdec
  | input => exact absurd rfl hin
  | _ => rfl

theorem State.inpAfter_eq (s : State) {i : Instr} (hin : i ≠ .input) : s.inpAfter i = s.inp := by
  cases i with
  | input => exact absurd rfl hin
  | _ => rfl

theorem State.outAfter_eq (s : State) {i : Instr} (hout : i ≠ .output) : s.outAfter i = s.out := by
  cases i with
  | output => exact absurd rfl hout
  | _ => rfl

theorem read_writeCell (m : List Host.Cell) (a b : Nat) (w : Option Byte) :
    Memory.read (writeCell m a w) b = if a = b then w.getD (Memory.read m b) else Memory.read m b := by
  cases w with
  | none => exact (ite_self _).symm
  | some v => exact Memory.read_write m a b v

theorem writeCell_wf {size : Nat} {m : List Host.Cell} {a : Nat} (w : Option Byte) (h : Memory.wf size m)
    (ha : a < size) : Memory.wf size (writeCell m a w) := by
  cases w with
  | none => exact h
  | some v => exact Memory.write_wf h ha

/-- An answered read makes the write of `,`. -/
theorem State.receive_tape (s : State) :
    (s.consume.receive s.inAnswer).tape = writeCell s.tape s.dp (s.cellWrite .input) := by
  cases ha : s.inAnswer with
  | byte b => simp [State.receive, State.cellWrite, ha, writeCell]
  | eof => cases hp : s.cfg.eofPolicy <;> simp [State.receive, State.cellWrite, ha, hp, writeCell]

/-! ### The control: `pc`, the stack, the end of the run -/

/-- The instructions other than `[`, `]` and the terminator change the data and advance. -/
theorem exec_advance {i : Instr} (hi : i ≠ .loopOpen ∧ i ≠ .loopClose ∧ i ≠ .halt) (s : State) :
    exec i s = .next (s.dataAfter i).advance := by
  obtain ⟨hopen, hclose, hhalt⟩ := hi
  cases i with
  | loopOpen => exact absurd rfl hopen
  | loopClose => exact absurd rfl hclose
  | halt => exact absurd rfl hhalt
  | input =>
    rw [exec_input, State.receive_eq, State.receive_tape]
    rfl
  | right | left | inc | dec | output | nop => rfl

/-- The ways an instruction can move the control of the engine: the cases of `[` and `]` with their causes, the
terminator, and the advance of all others. -/
inductive Effect (s : State) : Instr → State → Prop where
  | advance (i : Instr) (hi : i ≠ .loopOpen ∧ i ≠ .loopClose ∧ i ≠ .halt) : Effect s i (s.dataAfter i).advance
  | halt : Effect s .halt s.halt
  | skip (m : Nat) (hz : s.cell = 0) (hm : skipMatch s.prog s.pc = .found m) :
      Effect s .loopOpen ((s.setScanner m 1).goto (m + 1))
  | runOff (e d : Nat) (hz : s.cell = 0) (hm : skipMatch s.prog s.pc = .runOff e d) :
      Effect s .loopOpen ((s.setScanner e d).raise .unbalancedBracket)
  | enter (hz : s.cell ≠ 0) (hd : s.depth < s.cfg.stackCap) : Effect s .loopOpen (s.push s.pc).advance
  | overflow (hz : s.cell ≠ 0) (hd : s.cfg.stackCap ≤ s.depth) : Effect s .loopOpen (s.raise .controlStackOverflow)
  | unopened (hl : s.lstack = []) : Effect s .loopClose (s.raise .unbalancedBracket)
  | back (base : List Nat) (p : Nat) (hl : s.lstack = base ++ [p]) (hz : s.cell ≠ 0) :
      Effect s .loopClose (s.goto (p + 1))
  | exit (base : List Nat) (p : Nat) (hl : s.lstack = base ++ [p]) (hz : s.cell = 0) :
      Effect s .loopClose s.pop.advance

/-- Everything an instruction can do. -/
theorem exec_effect {i : Instr} {s t : State} (h : exec i s = .next t) : Effect s i t := by
  by_cases hi : i ≠ .loopOpen ∧ i ≠ .loopClose ∧ i ≠ .halt
  · cases (exec_advance hi s).symm.trans h
    exact .advance i hi
  · have hi : i = .loopOpen ∨ i = .loopClose ∨ i = .halt := by tauto
    rcases hi with rfl | rfl | rfl
    · rcases exec_loopOpen_cases h with ⟨hz, m, hm, rfl⟩ | ⟨hz, e, d, hm, rfl⟩ | ⟨hz, hd, rfl⟩ | ⟨hz, hd, rfl⟩
      · exact .skip m hz hm
      · exact .runOff e d hz hm
      · exact .enter hz hd
      · exact .overflow hz hd
    · rcases exec_loopClose_cases h with ⟨hl, rfl⟩ | ⟨base, p, hl, hz, rfl⟩ | ⟨base, p, hl, hz, rfl⟩
      · exact .unopened hl
      · exact .back base p hl hz
      · exact .exit base p hl hz
    · cases h
      exact .halt

/-! ### Each part of the next state -/

/-- The data after an instruction. -/
theorem exec_data {i : Instr} {s t : State} (h : exec i s = .next t) :
    t.dp = s.dpAfter i ∧ t.tape = writeCell s.tape s.dp (s.cellWrite i) ∧ t.inp = s.inpAfter i ∧
      t.out = s.outAfter i := by
  cases exec_effect h <;> exact ⟨rfl, rfl, rfl, rfl⟩

/-- An instruction keeps `dp` on the tape (10_state.md R22). -/
theorem exec_dp_lt {i : Instr} {s t : State} (h : exec i s = .next t) (hd : s.dp < s.cfg.tapeSize) :
    t.dp < s.cfg.tapeSize := by
  obtain ⟨hdp, -⟩ := exec_data h
  exact hdp ▸ State.dpAfter_lt i hd

theorem exec_tape {i : Instr} {s t : State} (h : exec i s = .next t) :
    t.tape = writeCell s.tape s.dp (s.cellWrite i) := by
  obtain ⟨-, htape, -⟩ := exec_data h
  exact htape

/-- The only cell an instruction can change is the current one (20_memory.md R41). -/
theorem exec_tape_other {i : Instr} {s t : State} (h : exec i s = .next t) {a : Nat} (ha : a ≠ s.dp) :
    Memory.read t.tape a = Memory.read s.tape a := by
  rw [exec_tape h, read_writeCell, if_neg (Ne.symm ha)]

/-- An instruction writes inside the tape and keeps it canonical. -/
theorem exec_tape_wf {i : Instr} {s t : State} (h : exec i s = .next t) (hd : s.dp < s.cfg.tapeSize)
    (hw : Memory.wf s.cfg.tapeSize s.tape) : Memory.wf s.cfg.tapeSize t.tape := by
  rw [exec_tape h]
  exact writeCell_wf _ hw hd

/-- Only `[` and `]` change the stack. -/
theorem exec_lstack {i : Instr} {s t : State} (h : exec i s = .next t) (hopen : i ≠ .loopOpen)
    (hclose : i ≠ .loopClose) : t.lstack = s.lstack := by
  cases exec_effect h with
  | advance | halt => rfl
  | skip | runOff | enter | overflow => exact absurd rfl hopen
  | unopened | back | exit => exact absurd rfl hclose

/-- No instruction lets the stack grow beyond its capacity (10_state.md R25, 60_exceptions.md R99). -/
theorem exec_depth_le {i : Instr} {s t : State} (h : exec i s = .next t) (hd : s.depth ≤ s.cfg.stackCap) :
    t.depth ≤ s.cfg.stackCap := by
  cases exec_effect h with
  | enter _ hroom => simpa [State.depth] using hroom
  | exit =>
    simp only [State.depth, State.advance_lstack, State.pop_lstack, List.length_dropLast]
    exact (Nat.sub_le _ _).trans hd
  | _ => exact hd

theorem exec_prog_cfg {i : Instr} {s t : State} (h : exec i s = .next t) : t.prog = s.prog ∧ t.cfg = s.cfg := by
  cases exec_effect h <;> exact ⟨rfl, rfl⟩

theorem step_prog_cfg {s t : State} (h : step s = .next t) : t.prog = s.prog ∧ t.cfg = s.cfg := by
  rcases step_cases h with ⟨-, rfl⟩ | ⟨-, -, rfl⟩ | ⟨-, -, -, rfl⟩ | ⟨i, -, hexec⟩
  · exact ⟨rfl, rfl⟩
  · exact ⟨rfl, rfl⟩
  · exact ⟨rfl, rfl⟩
  · exact exec_prog_cfg hexec

/-- The run goes on as it was, or the instruction ends it. -/
theorem exec_phase {i : Instr} {s t : State} (h : exec i s = .next t) :
    t.phase = s.phase ∧ t.status = s.status ∨ t.phase = .halted ∨ t.phase = .faulted := by
  cases exec_effect h with
  | advance | skip | enter | back | exit => exact .inl ⟨rfl, rfl⟩
  | halt => exact .inr (.inl rfl)
  | runOff | overflow | unopened => exact .inr (.inr rfl)

/-! ### No instruction and no step of a run stops the machine -/

/-- 60_exceptions.md R96. -/
theorem exec_next (i : Instr) (s : State) : ∃ t, exec i s = .next t := by
  by_cases hi : i ≠ .loopOpen ∧ i ≠ .loopClose ∧ i ≠ .halt
  · exact ⟨_, exec_advance hi s⟩
  · have hi : i = .loopOpen ∨ i = .loopClose ∨ i = .halt := by tauto
    rcases hi with rfl | rfl | rfl
    · exact ⟨_, rfl⟩
    · rcases List.eq_nil_or_concat s.lstack with hl | ⟨base, p, hl⟩
      · exact ⟨_, exec_loopClose_empty hl⟩
      · rw [List.concat_eq_append] at hl
        by_cases hz : s.cell = 0
        · exact ⟨_, exec_loopClose_exit hl hz⟩
        · exact ⟨_, exec_loopClose_back hl hz⟩
    · exact ⟨_, exec_halt s⟩

/-- No step stops while `pc` is inside the program or at its end (20_memory.md R42). -/
theorem step_next {s : State} (h : s.pc ≤ s.len) : ∃ t, step s = .next t := by
  by_cases hp : s.phase = .running
  · by_cases hl : s.cfg.maxCodeSize < s.len
    · exact ⟨_, by rw [step, fetch_tooLarge hp hl]⟩
    · have hl := Nat.le_of_not_lt hl
      rcases Nat.eq_or_lt_of_le h with he | hlt
      · exact ⟨_, by rw [step, fetch_endOfBuffer hp hl he]⟩
      · have hbyte : s.prog[s.pc]? = some s.prog[s.pc] := List.getElem?_eq_getElem hlt
        rw [step_of_instr (fetch_instr hp hl hbyte)]
        exact exec_next _ s
  · exact ⟨s, step_ended hp⟩

end Sys2Proof.Machine
end

section
/-! Balanced bytes and nested entries: why the live loop-stack entries stay nested (10_state.md R26, the argument of
41_loop_control.md R82). -/

namespace Sys2Proof.Machine

/-! ### The bytes between two positions -/

theorem between_eq_take_drop (prog : List Byte) (a b : Nat) : between prog a b = (prog.drop a).take (b - a) :=
  List.drop_take

@[simp] theorem between_self (prog : List Byte) (a : Nat) : between prog a a = [] := by
  simp [between_eq_take_drop]

theorem between_append (prog : List Byte) {a b c : Nat} (hab : a ≤ b) (hbc : b ≤ c) :
    between prog a c = between prog a b ++ between prog b c := by
  simp only [between_eq_take_drop]
  rw [show c - a = (b - a) + (c - b) by omega, List.take_add, List.drop_drop, Nat.add_sub_cancel' hab]

/-- The bytes from a position up to the next one: the byte there. -/
theorem between_succ {prog : List Byte} {a : Nat} {b : Byte} (h : prog[a]? = some b) :
    between prog a (a + 1) = [b] := by
  rw [between_eq_take_drop, Nat.add_sub_cancel_left, List.take_one, List.head?_drop, h, Option.toList_some]

/-! ### Balanced bytes -/

theorem BracketBalanced.nil : BracketBalanced [] := ⟨rfl, fun k => by simp⟩

theorem BracketBalanced.append {l l' : List Byte} (h : BracketBalanced l) (h' : BracketBalanced l') :
    BracketBalanced (l ++ l') := by
  obtain ⟨hsame, hnest⟩ := h
  obtain ⟨hsame', hnest'⟩ := h'
  refine ⟨?_, fun k => ?_⟩
  · rw [SameCount, List.count_append, List.count_append, hsame, hsame']
  · rw [List.take_append, List.count_append, List.count_append]
    exact Nat.add_le_add (hnest k) (hnest' _)

/-- A byte that is no bracket is balanced. -/
theorem BracketBalanced.single {b : Byte} (hopen : b ≠ Opcode.loopOpen) (hclose : b ≠ Opcode.loopClose) :
    BracketBalanced [b] := by
  refine ⟨by simp [SameCount, hopen, hclose], fun k => ?_⟩
  calc ([b].take k).count Opcode.loopClose ≤ [b].count Opcode.loopClose := (List.take_sublist k [b]).count_le _
    _ = 0 := by simp [hclose]
    _ ≤ _ := Nat.zero_le _

/-- Balanced bytes in a pair of brackets are balanced. -/
theorem BracketBalanced.bracket {l : List Byte} (h : BracketBalanced l) :
    BracketBalanced ([Opcode.loopOpen] ++ (l ++ [Opcode.loopClose])) := by
  have hne : Opcode.loopOpen ≠ Opcode.loopClose := by decide
  obtain ⟨hsame, hnest⟩ := h
  refine ⟨?_, fun k => ?_⟩
  · simp [SameCount, List.count_append, hne, hne.symm, show _ = _ from hsame, Nat.add_comm]
  · cases k with
    | zero => simp
    | succ k =>
      have hlast : (([Opcode.loopClose].take (k - l.length)).count Opcode.loopClose) ≤ 1 :=
        ((List.take_sublist _ _).count_le _).trans (by simp)
      have hbody := hnest k
      simp only [List.singleton_append, List.take_succ_cons, List.take_append, List.count_append, List.count_cons,
        beq_self_eq_true, beq_iff_eq, hne, if_true, if_false]
      omega

/-- The bytes of a whole loop, its brackets with it, are balanced if its body is. -/
theorem balanced_loop {prog : List Byte} {p m : Nat} (hlt : p < m) (hp : prog[p]? = some Opcode.loopOpen)
    (hm : prog[m]? = some Opcode.loopClose) (hbody : BracketBalanced (between prog (p + 1) m)) :
    BracketBalanced (between prog p (m + 1)) := by
  rw [between_append prog (Nat.le_succ p) (by omega : p + 1 ≤ m + 1), between_append prog hlt (Nat.le_succ m),
    between_succ hp, between_succ hm]
  exact hbody.bracket

/-! ### The forward skip -/

/-- A scan that finds a match at depth `d` has read bytes that bring the depth to 1, never to 0 on the way, and then a
`]` (41_loop_control.md R76). -/
theorem skipScan_found_split {l : List Byte} {i d m : Nat} (hd : 1 ≤ d) (h : skipScan l i d = .found m) :
    ∃ pre post, l = pre ++ Opcode.loopClose :: post ∧ m = i + pre.length ∧
      d + pre.count Opcode.loopOpen = 1 + pre.count Opcode.loopClose ∧
      ∀ k, (pre.take k).count Opcode.loopClose < d + (pre.take k).count Opcode.loopOpen := by
  induction l generalizing i d with
  | nil => simp at h
  | cons b l ih =>
    rw [skipScan_cons] at h
    split at h
    · cases h
    · split at h
      next hzero =>
        cases h
        obtain ⟨rfl, rfl⟩ := nestAfter_eq_zero hd hzero
        exact ⟨[], l, rfl, rfl, rfl, fun k => by simp⟩
      next hpos =>
        obtain ⟨pre, post, rfl, rfl, hcount, hnest⟩ := ih (Nat.one_le_iff_ne_zero.2 hpos) h
        have hb := nestAfter_count (b := b) hd
        refine ⟨b :: pre, post, rfl, by simp only [List.length_cons]; omega, ?_, fun k => ?_⟩
        · rw [← List.singleton_append, List.count_append, List.count_append]
          omega
        · cases k with
          | zero => simpa using Nat.pos_of_ne_zero (Nat.one_le_iff_ne_zero.1 hd)
          | succ k =>
            have hk := hnest k
            rw [List.take_succ_cons, ← List.singleton_append, List.count_append, List.count_append]
            omega

/-- The match of a skip is a `]` beyond the `[`, with balanced bytes between (41_loop_control.md R76(b)). -/
theorem skipMatch_found {prog : List Byte} {p m : Nat} (h : skipMatch prog p = .found m) :
    p < m ∧ prog[m]? = some Opcode.loopClose ∧ BracketBalanced (between prog (p + 1) m) := by
  obtain ⟨pre, post, hl, rfl, hcount, hnest⟩ := skipScan_found_split le_rfl h
  have hbody : between prog (p + 1) (p + 1 + pre.length) = pre := by
    simp [between_eq_take_drop, hl]
  refine ⟨by omega, ?_, ?_⟩
  · rw [← List.getElem?_drop, hl, List.getElem?_append_right le_rfl, Nat.sub_self, List.getElem?_cons_zero]
  · rw [hbody]
    exact ⟨Nat.add_left_cancel hcount, fun k => Nat.le_of_lt_succ (by have := hnest k; omega)⟩

/-! ### Nested entries -/

/-- Nested entries, seen from the top of the stack. -/
theorem nested_concat_iff (prog : List Byte) (pc : Nat) (base : List Nat) (p : Nat) :
    Nested prog pc (base ++ [p]) ↔
      Nested prog p base ∧ prog[p]? = some Opcode.loopOpen ∧ p < pc ∧ BracketBalanced (between prog (p + 1) pc) := by
  induction base with
  | nil => simp [Nested]
  | cons t base ih =>
    have hhead : (base ++ [p]).headD pc = base.headD p := by cases base <;> rfl
    simp only [List.cons_append, Nested, hhead, ih]
    tauto

/-- The entries stay nested while `pc` moves on over balanced bytes. -/
theorem Nested.move {prog : List Byte} {pc pc' : Nat} {l : List Nat} (h : Nested prog pc l) (hle : pc ≤ pc')
    (hb : BracketBalanced (between prog pc pc')) : Nested prog pc' l := by
  rcases List.eq_nil_or_concat l with rfl | ⟨base, p, rfl⟩
  · trivial
  · rw [List.concat_eq_append, nested_concat_iff] at h ⊢
    obtain ⟨hbase, hp, hlt, hbody⟩ := h
    refine ⟨hbase, hp, by omega, ?_⟩
    rw [between_append prog (b := pc) hlt hle]
    exact hbody.append hb

/-- A `[` is entered: its position goes on top. -/
theorem Nested.enter {prog : List Byte} {pc : Nat} {l : List Nat} (h : Nested prog pc l)
    (hpc : prog[pc]? = some Opcode.loopOpen) : Nested prog (pc + 1) (l ++ [pc]) :=
  (nested_concat_iff ..).2 ⟨h, hpc, Nat.lt_succ_self pc, by rw [between_self]; exact .nil⟩

/-- A `]` goes back to one past the top entry. -/
theorem Nested.back {prog : List Byte} {pc p : Nat} {base : List Nat} (h : Nested prog pc (base ++ [p])) :
    Nested prog (p + 1) (base ++ [p]) := by
  obtain ⟨hbase, hp, -, -⟩ := (nested_concat_iff ..).1 h
  exact hbase.enter hp

/-- A `]` pops the entry of the loop that it ends. -/
theorem Nested.exit {prog : List Byte} {pc p : Nat} {base : List Nat} (h : Nested prog pc (base ++ [p]))
    (hpc : prog[pc]? = some Opcode.loopClose) : Nested prog (pc + 1) base := by
  obtain ⟨hbase, hp, hlt, hbody⟩ := (nested_concat_iff ..).1 h
  exact hbase.move (by omega) (balanced_loop hlt hp hpc hbody)

/-- Nested entries rise strictly (10_state.md R26). -/
theorem Nested.pairwise_lt {prog : List Byte} {pc : Nat} {l : List Nat} (h : Nested prog pc l) :
    l.Pairwise (· < ·) := by
  induction l using List.reverseRecOn generalizing pc with
  | nil => exact .nil
  | append_singleton base p ih =>
    obtain ⟨hbase, -, -, -⟩ := (nested_concat_iff ..).1 h
    refine List.pairwise_append.2 ⟨ih hbase, List.pairwise_singleton _ _, fun t ht u hu => ?_⟩
    rw [List.mem_singleton.1 hu]
    exact hbase.entry_lt_pc t ht

/-- Nested entries are the positions of `[` bytes (10_state.md R26). -/
theorem Nested.entry_is_open {prog : List Byte} {pc : Nat} {l : List Nat} (h : Nested prog pc l) :
    ∀ t ∈ l, prog[t]? = some Opcode.loopOpen := by
  induction l with
  | nil => simp
  | cons t rest ih =>
    obtain ⟨ht, -, -, hrest⟩ := h
    exact List.forall_mem_cons.2 ⟨ht, ih hrest⟩

end Sys2Proof.Machine
end

section
/-! Every step keeps the invariant of a run. -/

namespace Sys2Proof.Machine

theorem statusAgrees_raise (s : State) (f : FatalError) : statusAgrees (s.raise f).phase (s.raise f).status :=
  ⟨f, rfl⟩

theorem RunInv.after_halt {s : State} (h : RunInv s) : RunInv s.halt := { h with statusRight := rfl }

theorem RunInv.after_raise {s : State} (h : RunInv s) (f : FatalError) : RunInv (s.raise f) :=
  { h with statusRight := statusAgrees_raise s f }

/-- Where an instruction leaves `pc` and the stack: inside the program, the live entries nested below it
(10_state.md R21, R26). -/
theorem exec_nested {i : Instr} {s t : State} (hf : fetch s = .instr i) (h : exec i s = .next t)
    (hn : Nested s.prog s.pc s.lstack) : t.pc ≤ t.len ∧ Nested t.prog t.pc t.lstack := by
  obtain ⟨hpc, b, hb, hopen, hclose⟩ := fetch_instr_byte hf
  have hbelow := hn.entry_lt_pc
  cases exec_effect h with
  | advance _ hi =>
    obtain ⟨hi, hi', -⟩ := hi
    have hbyte : BracketBalanced (between s.prog s.pc (s.pc + 1)) := by
      rw [between_succ hb]
      exact .single (mt hopen.1 hi) (mt hclose.1 hi')
    exact ⟨hpc, hn.move (Nat.le_succ _) hbyte⟩
  | halt | runOff | overflow | unopened => exact ⟨hpc.le, hn⟩
  | skip m hz hm =>
    obtain ⟨hlt, hmbyte, hbody⟩ := skipMatch_found hm
    exact ⟨(List.getElem?_eq_some_iff.1 hmbyte).1,
      hn.move (hlt.le.trans (Nat.le_succ m)) (balanced_loop hlt (prog_at_pc_of_fetch_loopOpen hf) hmbyte hbody)⟩
  | enter => exact ⟨hpc, hn.enter (prog_at_pc_of_fetch_loopOpen hf)⟩
  | back base p hl =>
    rw [hl] at hn hbelow
    have hp : p < s.pc := hbelow p (by simp)
    refine ⟨hp.trans hpc, ?_⟩
    rw [State.goto_lstack, hl]
    exact hn.back
  | exit base p hl =>
    rw [hl] at hn
    refine ⟨hpc, ?_⟩
    rw [State.advance_lstack, State.pop_lstack, hl, List.dropLast_concat]
    exact hn.exit (prog_at_pc_of_fetch_loopClose hf)

/-- The status an instruction leaves goes with the phase it leaves (10_state.md R30, 60_exceptions.md R97). -/
theorem exec_statusAgrees {i : Instr} {s t : State} (h : exec i s = .next t) (hs : statusAgrees s.phase s.status) :
    statusAgrees t.phase t.status := by
  cases exec_effect h with
  | halt => rfl
  | runOff | overflow | unopened => exact statusAgrees_raise _ _
  | _ => exact hs

theorem RunInv.after_exec {i : Instr} {s t : State} (h : RunInv s) (hf : fetch s = .instr i) (he : exec i s = .next t) :
    RunInv t := by
  obtain ⟨hprog, hcfg⟩ := exec_prog_cfg he
  obtain ⟨hpc, hnested⟩ := exec_nested hf he h.nested
  have hlen : t.len ≤ t.cfg.maxCodeSize := by
    rw [State.len, hprog, hcfg]
    exact ((fetch_instr_iff s i).1 hf).2.1
  exact
    { pcInProgram := hpc
      dpOnTape := hcfg ▸ exec_dp_lt he h.dpOnTape
      tapeCanonical := hcfg ▸ exec_tape_wf he h.dpOnTape h.tapeCanonical
      depthBounded := hcfg ▸ exec_depth_le he h.depthBounded
      nested := hnested
      statusRight := exec_statusAgrees he h.statusRight
      oversizeAtStart := fun hbig => absurd hbig (Nat.not_lt.2 hlen) }

theorem RunInv.after_step {s t : State} (h : RunInv s) (hs : step s = .next t) : RunInv t := by
  rcases step_cases hs with ⟨-, rfl⟩ | ⟨-, -, rfl⟩ | ⟨-, -, -, rfl⟩ | ⟨i, hf, he⟩
  · exact h
  · exact h.after_raise _
  · exact h.after_halt
  · exact h.after_exec hf he

/-- The state after reset meets the invariant: nothing has been written, pushed or executed (10_state.md R37). -/
theorem RunInv.at_reset {cfg : Config} (hcfg : cfg.wf) (prog inp : List Byte) :
    RunInv (State.resetWith cfg prog inp) where
  pcInProgram := Nat.zero_le _
  dpOnTape := hcfg.2.2
  tapeCanonical := ⟨.nil, by simp [State.resetWith]⟩
  depthBounded := Nat.zero_le _
  nested := trivial
  statusRight := rfl
  oversizeAtStart := fun _ => ⟨rfl, rfl⟩

/-- From a state that meets the invariant every run goes on, within it. -/
theorem RunInv.along_run {s : State} (h : RunInv s) (n : Nat) :
    ∃ t, runFor n s = .next t ∧ RunInv t ∧ t.prog = s.prog ∧ t.cfg = s.cfg := by
  induction n generalizing s with
  | zero => exact ⟨s, rfl, h, rfl, rfl⟩
  | succ n ih =>
    obtain ⟨u, hu⟩ := step_next h.pcInProgram
    obtain ⟨hprog, hcfg⟩ := step_prog_cfg hu
    obtain ⟨t, ht, hinv, hprog', hcfg'⟩ := ih (h.after_step hu)
    exact ⟨t, (runFor_succ n hu).trans ht, hinv, hprog'.trans hprog, hcfg'.trans hcfg⟩

end Sys2Proof.Machine
end

section
/-! The obligations of the invariant of a run (10_state.md). -/

namespace Sys2Proof.Proofs
open Sys2Proof Sys2Proof.Machine

/-- Settles O42: raising, halting and each instruction keep every part of the invariant; the nesting of the live
entries is kept because every move of `pc` is over balanced bytes. -/
theorem runInvKeptByEveryStep : Obligations.RunInvKeptByEveryStep := fun _ _ hinv hstep => hinv.after_step hstep

/-- Settles O41. -/
theorem runInvAtReset : Obligations.RunInvAtReset := fun _ prog inp hcfg => .at_reset hcfg prog inp

/-- Settles O43: under the invariant every step answers a state, and meets the invariant again. -/
theorem everyRunGoesOnInside : Obligations.EveryRunGoesOnInside := fun _ prog inp n hcfg =>
  (RunInv.at_reset hcfg prog inp).along_run n

/-- Settles O44: the live entries are nested below `pc`, which is inside the program. -/
theorem liveEntriesPointAtOpens : Obligations.LiveEntriesPointAtOpens := by
  intro s h
  refine ⟨h.nested.pairwise_lt, fun t ht => ?_⟩
  have hlt := h.nested.entry_lt_pc t ht
  exact ⟨hlt, hlt.trans_le h.pcInProgram, h.nested.entry_is_open t ht⟩

/-- Settles O55: the moves of `dp` are modulo TAPE_SIZE, the only cell written is the current one, and `[` pushes only
where there is room. -/
theorem stepsStayWithinTheBuild : Obligations.StepsStayWithinTheBuild := by
  intro s t h
  rcases step_cases h with ⟨-, rfl⟩ | ⟨-, -, rfl⟩ | ⟨-, -, -, rfl⟩ | ⟨i, -, he⟩
  · exact ⟨id, fun _ _ _ => rfl, id⟩
  · exact ⟨id, fun _ _ _ => rfl, id⟩
  · exact ⟨id, fun _ _ _ => rfl, id⟩
  · exact ⟨exec_dp_lt he, fun hd _ ha => exec_tape_other he (hd.trans_le ha).ne', exec_depth_le he⟩

end Sys2Proof.Proofs
end

section
/-! The controller (10_state.md R34, R35) and the step: where a step leaves the controller, what a cycle of a forward
skip does, and which states share their step. -/

namespace Sys2Proof.Machine

/-! ### Where a step leaves the controller -/

/-- The controller is between the instructions of a running engine, or has stopped with it. -/
def State.settled (s : State) : Prop := s.ctl = .exec ∧ s.phase = .running ∨ s.ctl = .done ∧ s.phase ≠ .running

theorem State.settled.atBoundary {s : State} (h : s.settled) : s.atBoundary := h.imp And.left And.left

theorem State.settled.inFlight {s : State} (h : s.settled) : InFlight s := by
  rcases h with ⟨hc, hp⟩ | ⟨hc, hp⟩ <;> simpa only [InFlight, hc] using hp

theorem settled_raise (s : State) (f : FatalError) : (s.raise f).settled := .inr ⟨rfl, Phase.noConfusion⟩

theorem settled_halt (s : State) : s.halt.settled := .inr ⟨rfl, Phase.noConfusion⟩

theorem exec_settled {i : Instr} {s t : State} (hp : s.phase = .running) (h : exec i s = .next t) : t.settled := by
  cases exec_effect h with
  | halt => exact settled_halt s
  | runOff | overflow | unopened => exact settled_raise _ _
  | advance | skip | enter | back | exit => exact .inl ⟨rfl, hp⟩

/-- A step of a running engine completes: the controller is in EXEC again, or in DONE if the run has ended. -/
theorem step_settled {s t : State} (hp : s.phase = .running) (h : step s = .next t) : t.settled := by
  rcases step_cases h with ⟨hended, -⟩ | ⟨-, -, rfl⟩ | ⟨-, -, -, rfl⟩ | ⟨i, -, he⟩
  · exact absurd hp hended
  · exact settled_raise s _
  · exact settled_halt s
  · exact exec_settled hp he

/-- The engine runs in every state of the controller but DONE. -/
theorem InFlight.running {s : State} (h : InFlight s) (hc : s.ctl ≠ .done) : s.phase = .running := by
  cases hctl : s.ctl with
  | exec => simpa only [InFlight, hctl] using h
  | skip =>
    simp only [InFlight, hctl] at h
    exact ((fetch_instr_iff s _).1 h.1).1
  | waitIn | waitOut =>
    simp only [InFlight, hctl] at h
    exact ((fetch_instr_iff s _).1 h).1
  | done => exact absurd hctl hc

/-- Where the engine does not run the controller is in DONE. -/
theorem InFlight.ctl_done {s : State} (h : InFlight s) (hp : s.phase ≠ .running) : s.ctl = .done :=
  by_contra fun hc => hp (h.running hc)

theorem fetch_eq_ended_iff (s : State) : fetch s = .ended ↔ s.phase ≠ .running := by
  refine ⟨fun h hp => ?_, fetch_ended⟩
  rw [fetch, hp] at h
  dsimp only at h
  split_ifs at h
  cases hr : s.progRead s.pc <;> simp [hr] at h

/-! ### States that share their step -/

/-- A `[` with a zero cell does the same whatever the hidden registers hold: a match sets all three, and a scan that
runs off sets the scanner and stops the controller. -/
theorem exec_loopOpen_hidden {s : State} (hz : s.cell = 0) (c : Ctl) (a d : Nat) :
    exec .loopOpen { s with ctl := c, scan := a, sdepth := d } = exec .loopOpen s := by
  cases hm : skipMatch s.prog s.pc with
  | found m =>
    rw [exec_loopOpen_skip hz hm]
    exact exec_loopOpen_skip hz hm
  | runOff e d =>
    rw [exec_loopOpen_runOff hz hm]
    exact exec_loopOpen_runOff hz hm

theorem fetch_arch (s : State) : fetch s.arch = fetch s := fetch_congr rfl rfl rfl rfl

/-- The fetch does not see the hidden registers. -/
theorem fetch_eq_of_arch_eq {s t : State} (h : t.arch = s.arch) : fetch t = fetch s := by
  rw [← fetch_arch t, h, fetch_arch]

/-- States that differ in hidden registers only share their step where it is a forward skip. -/
theorem step_eq_of_arch_eq_of_skip {s t : State} (hf : fetch s = .instr .loopOpen) (hz : s.cell = 0)
    (h : t.arch = s.arch) : step t = step s := by
  rw [step_of_instr ((fetch_eq_of_arch_eq h).trans hf), step_of_instr hf, (State.arch_eq_iff t s).1 h]
  exact exec_loopOpen_hidden hz ..

/-! ### A forward skip -/

/-- The index at which a scan ends: the match, or where it runs off. -/
def SkipResult.stop : SkipResult → Nat
  | .found m => m
  | .runOff e _ => e

theorem le_stop_skipScan (l : List Byte) (i d : Nat) : i ≤ (skipScan l i d).stop := by
  cases h : skipScan l i d with
  | found m => exact (skipScan_found_bounds h).1
  | runOff e d' => exact (skipScan_runOff_bounds h).1

/-- What the scanner registers hold in SKIP (`InFlight` in that state of the controller). -/
theorem inFlight_skip_iff {s : State} (hc : s.ctl = .skip) :
    InFlight s ↔ fetch s = .instr .loopOpen ∧ s.cell = 0 ∧ s.pc < s.scan ∧ s.scan ≤ s.len ∧ 1 ≤ s.sdepth ∧
      s.sdepth ≤ s.scan ∧ skipScan (s.prog.drop s.scan) s.scan s.sdepth = skipMatch s.prog s.pc := by
  simp only [InFlight, hc]

/-- One cycle in SKIP: at the end of the scan it completes the step of the `[`; before, it moves the scanner on by one
byte and the scan still to be done is the rest of the same. -/
theorem cycleSkip_cases {s : State} (h : InFlight s) (hc : s.ctl = .skip) :
    (s.scan = (skipMatch s.prog s.pc).stop ∧ step s = .next (cycleSkip s)) ∨
    ∃ d, s.scan < (skipMatch s.prog s.pc).stop ∧ cycleSkip s = s.setScanner (s.scan + 1) d ∧
      InFlight (s.setScanner (s.scan + 1) d) := by
  obtain ⟨hf, hz, hpc, hlen, hpos, hle, hscan⟩ := (inFlight_skip_iff hc).1 h
  rw [step_of_instr hf]
  cases hb : s.prog[s.scan]? with
  | none =>
    rw [List.drop_eq_nil_of_le (List.getElem?_eq_none_iff.1 hb), skipScan_nil] at hscan
    refine .inl ⟨by rw [← hscan]; rfl, ?_⟩
    rw [exec_loopOpen_runOff hz hscan.symm, cycleSkip, State.progRead, hb]
    rfl
  | some b =>
    obtain ⟨hlt, hget⟩ := List.getElem?_eq_some_iff.1 hb
    rw [List.drop_eq_getElem_cons hlt, hget, skipScan_cons] at hscan
    simp only [cycleSkip, State.progRead, hb]
    by_cases hterm : b = Config.terminator
    · rw [if_pos hterm] at hscan ⊢
      exact .inl ⟨by rw [← hscan]; rfl, exec_loopOpen_runOff hz hscan.symm⟩
    · rw [if_neg hterm] at hscan ⊢
      by_cases hzero : nestAfter s.sdepth b = 0
      · rw [if_pos hzero] at hscan ⊢
        have hone : s.sdepth = 1 := (nestAfter_eq_zero hpos hzero).2
        refine .inl ⟨by rw [← hscan]; rfl, ?_⟩
        rw [exec_loopOpen_skip hz hscan.symm, ← hone]
        rfl
      · rw [if_neg hzero] at hscan ⊢
        have hrest := inFlight_skip_iff (s := s.setScanner (s.scan + 1) (nestAfter s.sdepth b)) hc
        refine .inr ⟨_, ?_, rfl, hrest.2 ⟨hf, hz, ?_, hlt, ?_, ?_, hscan⟩⟩
        · rw [← hscan]
          exact le_stop_skipScan _ _ _
        · exact hpc.trans (Nat.lt_succ_self _)
        · exact Nat.one_le_iff_ne_zero.2 hzero
        · exact (nestAfter_le s.sdepth b).trans (Nat.succ_le_succ hle)

/-- A forward skip begins with its whole scan to be done (10_state.md R35). -/
theorem inFlight_startSkip {s : State} (hf : fetch s = .instr .loopOpen) (hz : s.cell = 0) :
    InFlight (startSkip s) :=
  (inFlight_skip_iff rfl).2 ⟨hf, hz, Nat.lt_succ_self _, (fetch_instr_byte hf).1, le_rfl, Nat.le_add_left 1 _, rfl⟩

/-! ### One cycle -/

theorem cycle_of_exec {p : Pins} {s : State} (hr : p.rst = none) (hc : s.ctl = .exec) : cycle p s = cycleExec s := by
  simp only [cycle, hr, hc]

theorem cycle_of_skip {p : Pins} {s : State} (hr : p.rst = none) (hc : s.ctl = .skip) :
    cycle p s = .next (cycleSkip s) := by
  simp only [cycle, hr, hc]

theorem cycle_of_done {p : Pins} {s : State} (hr : p.rst = none) (hc : s.ctl = .done) : cycle p s = .next s := by
  simp only [cycle, hr, hc]

/-- A cycle in EXEC of a running engine completes the step, but for a forward skip and the two stream instructions. -/
theorem cycleExec_eq_step {s : State} (hp : s.phase = .running) (hin : fetch s ≠ .instr .input)
    (hout : fetch s ≠ .instr .output) (hskip : fetch s = .instr .loopOpen → s.cell ≠ 0) : cycleExec s = step s := by
  cases hf : fetch s with
  | ended => exact absurd hp ((fetch_eq_ended_iff s).1 hf)
  | tooLarge | endOfBuffer | outside => simp only [cycleExec, hf]
  | instr i =>
    rw [step_of_instr hf]
    simp only [cycleExec, hf]
    cases i with
    | loopOpen => simp [issue, State.cellIsZero_eq_false (hskip hf)]
    | input => exact absurd hf hin
    | output => exact absurd hf hout
    | right | left | inc | dec | loopClose | halt | nop => rfl

theorem cycleExec_skip {s : State} (hf : fetch s = .instr .loopOpen) (hz : s.cell = 0) :
    cycleExec s = .next (startSkip s) := by
  simp [cycleExec, hf, issue, hz]

/-- The state of the controller in which an instruction waits for the host (10_state.md R35). -/
inductive WaitsIn : Instr → Ctl → Prop where
  | input : WaitsIn .input .waitIn
  | output : WaitsIn .output .waitOut

theorem WaitsIn.not_atBoundary {i : Instr} {s : State} (h : WaitsIn i s.ctl) : ¬ s.atBoundary := by
  rintro (hc | hc) <;> rw [hc] at h <;> cases h

theorem inFlight_wait_iff {i : Instr} {s : State} (h : WaitsIn i s.ctl) : InFlight s ↔ fetch s = .instr i := by
  cases hc : s.ctl <;> rw [hc] at h <;> cases h <;> simp only [InFlight, hc]

/-- A stream instruction does the same in its wait as at its issue. -/
theorem exec_wait {i : Instr} {c : Ctl} (h : WaitsIn i c) (s : State) : exec i { s with ctl := c } = exec i s := by
  have hi : i ≠ .loopOpen ∧ i ≠ .loopClose ∧ i ≠ .halt := by cases h <;> decide
  rw [exec_advance hi, exec_advance hi]
  rfl

theorem cycleExec_wait {i : Instr} {c : Ctl} (h : WaitsIn i c) {s : State} (hf : fetch s = .instr i) :
    cycleExec s = .next { s with ctl := c } := by
  cases h <;> simp only [cycleExec, hf, issue]

/-- Does the host answer what the controller asks for? -/
def Pins.answers (p : Pins) : Ctl → Bool
  | .waitIn => p.inReady
  | .waitOut => p.outReady
  | _ => false

theorem Pins.idle_answers (c : Ctl) : Pins.idle.answers c = false := by cases c <;> rfl

theorem Pins.ready_answers {i : Instr} {c : Ctl} (h : WaitsIn i c) : Pins.ready.answers c = true := by cases h <;> rfl

/-- A cycle of a wait does its instruction if the host answers, and nothing if not. -/
theorem cycle_wait {i : Instr} {p : Pins} {s : State} (hr : p.rst = none) (h : WaitsIn i s.ctl) :
    cycle p s = if p.answers s.ctl then exec i s else .next s := by
  cases hc : s.ctl <;> rw [hc] at h <;> cases h <;> simp [cycle, hr, hc, Pins.answers, exec] <;> rfl

/-! ### The cycle as a part of a step (10_state.md R36) -/

/-- What a cycle from `s` to `u` without reset does for the step of a running engine. -/
inductive CycleEffect (s u : State) : Prop where
  /-- It completes the step. -/
  | completes (hstep : step s = .next u)
  /-- It changes hidden registers at most, and the step is still to come. -/
  | pending (hmid : ¬ u.atBoundary) (hinv : InFlight u) (harch : u.arch = s.arch) (hstep : step u = step s)

/-- The issue of a stream instruction only begins it. -/
theorem issue_wait_effect {i : Instr} {c : Ctl} (hw : WaitsIn i c) {s : State} (hf : fetch s = .instr i) :
    CycleEffect s { s with ctl := c } := by
  have hf' : fetch { s with ctl := c } = .instr i := hf
  have hstep : step { s with ctl := c } = step s := by rw [step_of_instr hf', step_of_instr hf, exec_wait hw]
  exact .pending (WaitsIn.not_atBoundary (s := { s with ctl := c }) hw) ((inFlight_wait_iff hw).2 hf') rfl hstep

/-- The issue of a forward skip only begins it. -/
theorem issue_skip_effect {s : State} (hf : fetch s = .instr .loopOpen) (hz : s.cell = 0) :
    CycleEffect s (startSkip s) :=
  .pending (by rintro (hc | hc) <;> cases hc) (inFlight_startSkip hf hz) rfl (step_eq_of_arch_eq_of_skip hf hz rfl)

theorem cycleExec_effect {s u : State} (hp : s.phase = .running) (h : cycleExec s = .next u) : CycleEffect s u := by
  by_cases hin : fetch s = .instr .input
  · cases (cycleExec_wait .input hin).symm.trans h
    exact issue_wait_effect .input hin
  by_cases hout : fetch s = .instr .output
  · cases (cycleExec_wait .output hout).symm.trans h
    exact issue_wait_effect .output hout
  by_cases hskip : fetch s = .instr .loopOpen ∧ s.cell = 0
  · obtain ⟨hf, hz⟩ := hskip
    cases (cycleExec_skip hf hz).symm.trans h
    exact issue_skip_effect hf hz
  · exact .completes ((cycleExec_eq_step hp hin hout (not_and.1 hskip)).symm.trans h)

theorem cycleSkip_effect {s : State} (h : InFlight s) (hc : s.ctl = .skip) : CycleEffect s (cycleSkip s) := by
  obtain ⟨hf, hz, -⟩ := (inFlight_skip_iff hc).1 h
  rcases cycleSkip_cases h hc with ⟨-, hstep⟩ | ⟨d, -, heq, hinv⟩
  · exact .completes hstep
  · rw [heq]
    exact .pending (by rintro (hc' | hc') <;> cases hc.symm.trans hc') hinv rfl (step_eq_of_arch_eq_of_skip hf hz rfl)

theorem cycle_wait_effect {i : Instr} {p : Pins} {s u : State} (hr : p.rst = none) (h : InFlight s)
    (hw : WaitsIn i s.ctl) (hcycle : cycle p s = .next u) : CycleEffect s u := by
  rw [cycle_wait hr hw] at hcycle
  split at hcycle
  · exact .completes ((step_of_instr ((inFlight_wait_iff hw).1 h)).trans hcycle)
  · cases hcycle
    exact .pending hw.not_atBoundary h rfl rfl

/-- Every cycle without reset completes the step, or leaves it to come. -/
theorem cycle_effect {p : Pins} {s u : State} (hr : p.rst = none) (h : InFlight s) (hdone : s.ctl ≠ .done)
    (hcycle : cycle p s = .next u) : CycleEffect s u := by
  cases hc : s.ctl with
  | exec => exact cycleExec_effect (h.running hdone) ((cycle_of_exec hr hc).symm.trans hcycle)
  | skip =>
    cases (cycle_of_skip hr hc).symm.trans hcycle
    exact cycleSkip_effect h hc
  | waitIn => exact cycle_wait_effect (i := .input) hr h (hc ▸ .input) hcycle
  | waitOut => exact cycle_wait_effect (i := .output) hr h (hc ▸ .output) hcycle
  | done => exact absurd hc hdone

/-- A cycle without reset keeps the hidden registers in agreement with the architectural state. -/
theorem InFlight.after_cycle {p : Pins} {s u : State} (hr : p.rst = none) (h : InFlight s)
    (hcycle : cycle p s = .next u) : InFlight u := by
  by_cases hdone : s.ctl = .done
  · cases (cycle_of_done hr hdone).symm.trans hcycle
    exact h
  · cases cycle_effect hr h hdone hcycle with
    | completes hstep => exact (step_settled (h.running hdone) hstep).inFlight
    | pending _ hinv => exact hinv

/-- The outcome of a run that has ended (43_halt_nop.md R94). -/
theorem State.outcome?_of_ended {s : State} (h : s.phase ≠ .running) :
    s.outcome? = some ⟨s.phase, s.status, s.pc, s.dp, s.tape, s.lstack, s.out, s.inp⟩ := by
  cases hp : s.phase with
  | running => exact absurd hp h
  | halted | faulted => simp only [State.outcome?, hp]

/-! ### Sequences of cycles -/

theorem cycles_cons {p : Pins} {s t : State} (ps : List Pins) (h : cycle p s = .next t) :
    cycles (p :: ps) s = cycles ps t := by
  simp only [cycles, h]

theorem cycles_cons_next {p : Pins} {ps : List Pins} {s u : State} (h : cycles (p :: ps) s = .next u) :
    ∃ w, cycle p s = .next w ∧ cycles ps w = .next u := by
  cases hc : cycle p s with
  | next w => exact ⟨w, rfl, (cycles_cons ps hc).symm.trans h⟩
  | fault r => simp [cycles, hc] at h
  | refused r => simp [cycles, hc] at h

theorem cycles_append {qs : List Pins} {s t : State} (ps : List Pins) (h : cycles qs s = .next t) :
    cycles (qs ++ ps) s = cycles ps t := by
  induction qs generalizing s with
  | nil =>
    cases h
    rfl
  | cons q qs ih =>
    obtain ⟨w, hw, hrest⟩ := cycles_cons_next h
    rw [List.cons_append, cycles_cons _ hw, ih hrest]

/-- Where each cycle of a sequence leaves the state as it is, so does the sequence. -/
theorem cycles_fixed {ps : List Pins} {s : State} (h : ∀ p ∈ ps, cycle p s = .next s) : cycles ps s = .next s := by
  induction ps with
  | nil => rfl
  | cons p ps ih =>
    obtain ⟨hp, hps⟩ := List.forall_mem_cons.1 h
    exact (cycles_cons ps hp).trans (ih hps)

/-- From a cycle that left the step to come, the run is that of the state before it, once it has taken a step. -/
theorem runFor_succ_congr {s w : State} (n : Nat) (h : step w = step s) : runFor (n + 1) s = runFor (n + 1) w := by
  simp only [runFor, h]

theorem cycles_follow_steps {ps : List Pins} {s u : State} (hr : ∀ p ∈ ps, p.rst = none) (h : InFlight s)
    (hcycles : cycles ps s = .next u) :
    InFlight u ∧ ∃ n v, n ≤ ps.length ∧ runFor n s = .next v ∧ u.arch = v.arch ∧ step u = step v ∧
      (u.atBoundary → u = v) := by
  induction ps generalizing s with
  | nil =>
    cases hcycles
    exact ⟨h, 0, _, le_rfl, rfl, rfl, rfl, fun _ => rfl⟩
  | cons p ps ih =>
    obtain ⟨hrp, hrps⟩ := List.forall_mem_cons.1 hr
    obtain ⟨w, hw, hrest⟩ := cycles_cons_next hcycles
    obtain ⟨hu, n, v, hn, hrun, harch, hstep, hbound⟩ := ih hrps (h.after_cycle hrp hw) hrest
    have hle : n ≤ (p :: ps).length := hn.trans (Nat.le_succ _)
    refine ⟨hu, ?_⟩
    by_cases hdone : s.ctl = .done
    · cases (cycle_of_done hrp hdone).symm.trans hw
      exact ⟨n, v, hle, hrun, harch, hstep, hbound⟩
    cases cycle_effect hrp h hdone hw with
    | completes hs => exact ⟨n + 1, v, Nat.succ_le_succ hn, (runFor_succ n hs).trans hrun, harch, hstep, hbound⟩
    | pending hmid _ hsame hcome =>
      cases n with
      | zero =>
        cases hrun
        exact ⟨0, s, Nat.zero_le _, rfl, harch.trans hsame, hstep.trans hcome,
          fun hb => absurd (hbound hb ▸ hb) hmid⟩
      | succ n => exact ⟨n + 1, v, hle, (runFor_succ_congr n hcome).trans hrun, harch, hstep, hbound⟩

/-! ### How long a step takes (70_reset_and_hazards.md R123) -/

/-- The cycles of a skip from SKIP on: one for each byte to where the scan ends, and the one there. -/
theorem cycles_of_skip {s : State} (h : InFlight s) (hc : s.ctl = .skip) :
    cycles (List.replicate (1 + ((skipMatch s.prog s.pc).stop - s.scan)) Pins.idle) s = step s := by
  generalize hk : (skipMatch s.prog s.pc).stop - s.scan = k
  induction k generalizing s with
  | zero =>
    rcases cycleSkip_cases h hc with ⟨-, hstep⟩ | ⟨d, hlt, -⟩
    · exact (cycles_cons [] (cycle_of_skip rfl hc)).trans hstep.symm
    · omega
  | succ k ih =>
    rcases cycleSkip_cases h hc with ⟨heq, -⟩ | ⟨d, hlt, heq, hinv⟩
    · omega
    · obtain ⟨hf, hz, -⟩ := (inFlight_skip_iff hc).1 h
      have hrest : (skipMatch s.prog s.pc).stop - (s.scan + 1) = k := by omega
      have hcycle : cycle Pins.idle s = .next (s.setScanner (s.scan + 1) d) := by rw [cycle_of_skip rfl hc, heq]
      rw [← Nat.add_assoc, List.replicate_succ, cycles_cons _ hcycle, ih hinv hc hrest]
      exact step_eq_of_arch_eq_of_skip hf hz rfl

/-- The cycles of a whole skip: one to start it, and then as many as there are bytes to where the scan ends. -/
theorem cycles_of_skip_step {s : State} (hc : s.ctl = .exec) (hf : fetch s = .instr .loopOpen) (hz : s.cell = 0) :
    cycles (List.replicate (1 + ((skipMatch s.prog s.pc).stop - s.pc)) Pins.idle) s = step s := by
  have hlt : s.pc + 1 ≤ (skipMatch s.prog s.pc).stop := le_stop_skipScan _ _ _
  have hstart : cycle Pins.idle s = .next (startSkip s) := (cycle_of_exec rfl hc).trans (cycleExec_skip hf hz)
  rw [show (skipMatch s.prog s.pc).stop - s.pc = 1 + ((skipMatch s.prog s.pc).stop - (s.pc + 1)) by omega,
    Nat.add_comm, List.replicate_succ, cycles_cons _ hstart]
  exact (cycles_of_skip (inFlight_startSkip hf hz) rfl).trans (step_eq_of_arch_eq_of_skip hf hz rfl)

/-- The cycles of a stream instruction: one to issue it, the host's waiting cycles, and the one with its answer. -/
theorem cycles_of_stream_step {i : Instr} {c : Ctl} (hw : WaitsIn i c) {s : State} (hc : s.ctl = .exec)
    (hf : fetch s = .instr i) (w : Nat) :
    cycles (List.replicate (1 + w) Pins.idle ++ [Pins.ready]) s = step s := by
  have hissue : cycle Pins.idle s = .next { s with ctl := c } := (cycle_of_exec rfl hc).trans (cycleExec_wait hw hf)
  have hidle : cycles (List.replicate w Pins.idle) { s with ctl := c } = .next { s with ctl := c } :=
    cycles_fixed fun p hp => by
      rw [List.eq_of_mem_replicate hp, cycle_wait rfl hw, Pins.idle_answers]
      rfl
  have hready : cycle Pins.ready { s with ctl := c } = exec i { s with ctl := c } := by
    rw [cycle_wait rfl hw, if_pos (Pins.ready_answers hw)]
  obtain ⟨t, ht⟩ := exec_next i { s with ctl := c }
  rw [Nat.add_comm, List.replicate_succ, List.cons_append, cycles_cons _ hissue, cycles_append _ hidle,
    cycles_cons [] (hready.trans ht), step_of_instr hf, ← exec_wait hw, ht]
  rfl

/-- The one cycle of every other step. -/
theorem cycles_of_plain_step {s : State} (hc : s.ctl = .exec) (hp : s.phase = .running)
    (hin : fetch s ≠ .instr .input) (hout : fetch s ≠ .instr .output)
    (hskip : fetch s = .instr .loopOpen → s.cell ≠ 0) {t : State} (h : step s = .next t) :
    cycles [Pins.idle] s = .next t :=
  cycles_cons [] (((cycle_of_exec rfl hc).trans (cycleExec_eq_step hp hin hout hskip)).trans h)

end Sys2Proof.Machine
end

section
/-! The obligations of the controller (10_state.md). -/

namespace Sys2Proof.Proofs
open Sys2Proof Sys2Proof.Machine

/-- Settles O47: after reset the controller is in EXEC and the engine runs. -/
theorem controllerReadyAtReset : Obligations.ControllerReadyAtReset := fun _ _ _ => rfl

/-- Settles O48: a cycle of a running engine has one of the two effects of `CycleEffect`, and a completed step leaves
the controller in EXEC or DONE. -/
theorem cycleCompletesOrAwaitsTheStep : Obligations.CycleCompletesOrAwaitsTheStep := by
  intro p s u hr h hcycle
  refine ⟨h.after_cycle hr hcycle, fun hdone => ?_, fun hdone hb => ?_, fun hdone hb => ?_⟩
  · cases (cycle_of_done hr hdone).symm.trans hcycle
    rfl
  · cases cycle_effect hr h hdone hcycle with
    | completes hstep => exact hstep
    | pending hmid => exact absurd hb hmid
  · cases cycle_effect hr h hdone hcycle with
    | completes hstep => exact absurd (step_settled (h.running hdone) hstep).atBoundary hb
    | pending _ _ harch hstep => exact ⟨harch, hstep⟩

/-- Settles O49, by induction on the cycles: each completes one more step, or leaves the step to come. -/
theorem controllerRunFollowsTheSteps : Obligations.ControllerRunFollowsTheSteps :=
  fun _ _ _ hr h hcycles => cycles_follow_steps hr h hcycles

/-- Settles O50: the cycles of a skip, of a stream instruction, and of every other step. -/
theorem cyclesOfEveryStep : Obligations.CyclesOfEveryStep := by
  intro s t hc hp hstep
  rw [← hstep]
  refine ⟨fun m hf hz hm => ?_, fun e d hf hz hm => ?_, ?_, fun hin hout hskip => ?_⟩
  · have h := cycles_of_skip_step hc hf hz
    rwa [hm] at h
  · have h := cycles_of_skip_step hc hf hz
    rwa [hm] at h
  · rintro (hf | hf) w
    · exact cycles_of_stream_step .input hc hf w
    · exact cycles_of_stream_step .output hc hf w
  · exact (cycles_of_plain_step hc hp hin hout hskip hstep).trans hstep.symm

/-- Settles O40: a step answers the state itself, and so does a cycle, the controller being in DONE. -/
theorem endedRunIsFrozen : Obligations.EndedRunIsFrozen := by
  intro s hp
  refine ⟨fun n => ?_, fun h ps hr => cycles_fixed fun p hps => cycle_of_done (hr p hps) (h.ctl_done hp), ?_⟩
  · induction n with
    | zero => rfl
    | succ n ih => rw [runFor_succ n (step_ended hp), ih]
  · exact ⟨_, State.outcome?_of_ended hp, rfl, rfl⟩

end Sys2Proof.Proofs
end

section
/-! What the state's writers and readers are (10_state.md R20, R38), and the ports (R31). -/

namespace Sys2Proof.Machine

/-- What an instruction does to the data depends on no cell but the current one. -/
theorem State.dataAfter_other_tape {s : State} {tape' : List Host.Cell} (hcell : Memory.read tape' s.dp = s.cell)
    (i : Instr) :
    ({ s with tape := tape' } : State).dataAfter i =
      { s.dataAfter i with tape := writeCell tape' s.dp (s.cellWrite i) } := by
  have hcell' : ({ s with tape := tape' } : State).cell = s.cell := hcell
  cases i with
  | inc | dec =>
    simp only [State.dataAfter, State.cellWrite, hcell']
    rfl
  | output =>
    simp only [State.dataAfter, State.outAfter, hcell']
    rfl
  | _ => rfl

/-- An instruction sees no cell but the current one: on another tape with the same current cell it makes the same write,
and everything else comes out the same (20_memory.md R41). -/
theorem exec_other_tape {i : Instr} {s t : State} {tape' : List Host.Cell} (hcell : Memory.read tape' s.dp = s.cell)
    (h : exec i s = .next t) :
    exec i { s with tape := tape' } = .next { t with tape := writeCell tape' s.dp (s.cellWrite i) } := by
  cases exec_effect h with
  | advance i hi =>
    rw [exec_advance hi, State.dataAfter_other_tape hcell]
    rfl
  | halt => rfl
  | skip m hz hm => exact exec_loopOpen_skip (hcell.trans hz) hm
  | runOff e d hz hm => exact exec_loopOpen_runOff (hcell.trans hz) hm
  | enter hz hd => exact exec_loopOpen_push (hcell.trans_ne hz) hd
  | overflow hz hd => exact exec_loopOpen_overflow (hcell.trans_ne hz) hd
  | unopened hl => exact exec_loopClose_empty hl
  | back base p hl hz => exact exec_loopClose_back hl (hcell.trans_ne hz)
  | exit base p hl hz => exact exec_loopClose_exit hl (hcell.trans hz)

end Sys2Proof.Machine
end

section
/-! The obligations of the state and its ports (10_state.md). -/

namespace Sys2Proof.Proofs
open Sys2Proof Sys2Proof.Machine

/-- Settles O2: the port is one bit wider than MAX_CODESIZE needs, so that all ones is above it. -/
theorem progLenPortShowsOversize : Obligations.ProgLenPortShowsOversize := by
  intro cfg len
  have hmax : cfg.maxCodeSize < 2 ^ cfg.pcW := lt_pow_widthFor le_rfl
  have hwidth : 2 ^ cfg.progLenW = 2 ^ cfg.pcW * 2 := pow_succ ..
  by_cases hfits : len < 2 ^ cfg.progLenW
  · have hport : (progLenPort cfg len).toNat = len := by
      rw [progLenPort, if_pos hfits, BitVec.toNat_ofNat, Nat.mod_eq_of_lt hfits]
    rw [hport]
    exact ⟨Iff.rfl, fun _ => rfl⟩
  · have hport : (progLenPort cfg len).toNat = 2 ^ cfg.progLenW - 1 := by
      rw [progLenPort, if_neg hfits, BitVec.toNat_allOnes]
    rw [hport]
    omega

/-- Settles O3, phase by phase; while the engine runs the invariant says that the register is 0. -/
theorem statusPortsShowTheRun : Obligations.StatusPortsShowTheRun := by
  intro s
  have hstatus : RunInv s → s.phase = .running → s.status = 0 := fun h hp => by
    simpa only [statusAgrees, hp] using h.statusRight
  cases hp : s.phase with
  | running =>
    simpa [State.done, State.statusPort, State.phasePort, Phase.bits, hp] using fun h => (hstatus h hp).symm
  | halted | faulted => simp [State.done, State.statusPort, State.phasePort, Phase.bits, hp]

/-- Settles O5. -/
theorem resetValues : Obligations.ResetValues := fun _ _ _ =>
  ⟨rfl, rfl, fun _ => rfl, rfl, rfl, rfl, rfl, rfl, rfl, rfl, rfl⟩

/-- Settles O16: a fatal error and the ends of the run leave `pc`; for an instruction it is where its effect says. -/
theorem nextPcOfEveryStep : Obligations.NextPcOfEveryStep := by
  intro s t hp hstep
  rcases step_cases hstep with ⟨hended, -⟩ | ⟨-, -, rfl⟩ | ⟨-, hl, he, rfl⟩ | ⟨i, hf, hexec⟩
  · exact absurd hp hended
  · rfl
  · rw [fetch_endOfBuffer hp hl he]
    rfl
  · have goes_on (ht : t.phase = s.phase) : t.phase ≠ .faulted := by
      rw [ht, hp]
      decide
    rw [hf]
    cases exec_effect hexec with
    | halt | runOff | overflow | unopened => rfl
    | advance i hi =>
      obtain ⟨hopen, hclose, hhalt⟩ := hi
      rw [if_neg (goes_on rfl)]
      cases i with
      | loopOpen => exact absurd rfl hopen
      | loopClose => exact absurd rfl hclose
      | halt => exact absurd rfl hhalt
      | _ => rfl
    | skip m hz hm =>
      rw [if_neg (goes_on rfl), hm]
      exact (if_neg (not_not.2 hz)).symm
    | enter hz =>
      rw [if_neg (goes_on rfl)]
      exact (if_pos hz).symm
    | back base p hl hz =>
      rw [if_neg (goes_on rfl), hl, List.getLastD_concat]
      exact (if_pos hz).symm
    | exit base p hl hz =>
      rw [if_neg (goes_on rfl)]
      exact (if_neg (not_not.2 hz)).symm

/-- Settles O17: the data change as `exec_data` says, only `[` and `]` reach the stack, and only the end of a run
changes its phase. -/
theorem onlyNamedInstructionsWrite : Obligations.OnlyNamedInstructionsWrite := by
  intro i s t h
  obtain ⟨hdp, htape, hinp, hout⟩ := exec_data h
  obtain ⟨hprog, hcfg⟩ := exec_prog_cfg h
  refine ⟨fun hright hleft => hdp.trans (s.dpAfter_eq hright hleft), fun hinc hdec hin => ?_,
    fun _ ha => exec_tape_other h ha, exec_lstack h, fun hin => hinp.trans (s.inpAfter_eq hin),
    fun ho => hout.trans (s.outAfter_eq ho), hprog, hcfg, fun hhalt hopen hclose => ?_, exec_phase h⟩
  · rw [htape, s.cellWrite_eq_none hinc hdec hin]
    rfl
  · cases (exec_advance ⟨hopen, hclose, hhalt⟩ s).symm.trans h
    exact ⟨rfl, rfl⟩

/-- Settles O18: on the other tape the instruction makes the same write to the same cell. -/
theorem onlyTheCurrentCellIsSeen : Obligations.OnlyTheCurrentCellIsSeen := by
  intro i s tape' hcell
  obtain ⟨t, h⟩ := exec_next i s
  refine ⟨t, _, h, exec_other_tape hcell h, rfl, fun a ha => ?_⟩
  rw [exec_tape h, read_writeCell, read_writeCell, ha]

end Sys2Proof.Proofs
end

section
/-! The program space and the streams as the step and the controller use them (20_memory.md): what a fetch and a cycle
see of the program (R42), that neither writes it (R40), the host's load of a byte (R44), and the holds (R85, R105). -/

namespace Sys2Proof.Machine

/-! ### Placing a byte (20_memory.md R44) -/

/-- The program padded to reach index `i` and cut there ends at `i`. -/
theorem length_padded_take (prog : List Byte) (i : Nat) :
    ((prog ++ List.replicate (i - prog.length) 0).take i).length = i := by
  rw [List.length_take, List.length_append, List.length_replicate]
  omega

theorem placeByte_getElem?_same (prog : List Byte) (i : Nat) (b : Byte) : (placeByte prog i b)[i]? = some b := by
  have hlen := length_padded_take prog i
  rw [placeByte, List.getElem?_append_right hlen.le, hlen, Nat.sub_self, List.getElem?_cons_zero]

/-- Placing a byte lengthens the program as far as the byte, and no further. -/
theorem length_placeByte (prog : List Byte) (i : Nat) (b : Byte) :
    (placeByte prog i b).length = max prog.length (i + 1) := by
  rw [placeByte, List.length_append, length_padded_take, List.length_cons, List.length_drop]
  omega

/-- The word placed at `pc` is what is fetched, where the build can hold a program that long. -/
theorem fetch_withFetchWord {s : State} (nbits w : Nat) (hlen : s.len ≤ s.cfg.maxCodeSize)
    (hpc : s.pc < s.cfg.maxCodeSize) :
    fetch (s.withFetchWord nbits w) = .instr (decodeByte (tableByte nbits w)) := by
  have hfits : (s.withFetchWord nbits w).len ≤ s.cfg.maxCodeSize :=
    (length_placeByte ..).le.trans (max_le hlen hpc)
  exact fetch_instr rfl hfits (placeByte_getElem?_same ..)

/-! ### The port `prog_addr` (20_memory.md R42) -/

/-- An instruction is fetched exactly in a running engine with a program it accepts and `pc` inside it. -/
theorem exists_fetch_instr_iff (s : State) :
    (∃ i, fetch s = .instr i) ↔ s.phase = .running ∧ s.len ≤ s.cfg.maxCodeSize ∧ s.pc < s.len := by
  constructor
  · rintro ⟨i, hf⟩
    obtain ⟨hp, hl, -⟩ := (fetch_instr_iff s i).1 hf
    exact ⟨hp, hl, (fetch_instr_byte hf).1⟩
  · rintro ⟨hp, hl, hlt⟩
    exact ⟨_, fetch_instr hp hl (List.getElem?_eq_getElem hlt)⟩

theorem progAddr_of_exec {s : State} (hc : s.ctl = .exec) (a : Nat) :
    s.progAddr = some a ↔ a = s.pc ∧ ∃ i, fetch s = .instr i := by
  rw [exists_fetch_instr_iff, State.progAddr, hc]
  simp only [Option.ite_none_right_eq_some, Option.some.injEq]
  rw [and_comm, eq_comm]

theorem progAddr_of_skip {s : State} (hc : s.ctl = .skip) (a : Nat) :
    s.progAddr = some a ↔ a = s.scan ∧ s.scan < s.len := by
  rw [State.progAddr, hc]
  simp only [Option.ite_none_right_eq_some, Option.some.injEq]
  rw [and_comm, eq_comm]

/-- `prog_addr` is driven in EXEC and in SKIP only. -/
theorem progAddr_some {s : State} {a : Nat} (h : s.progAddr = some a) : s.ctl = .exec ∨ s.ctl = .skip := by
  cases hc : s.ctl with
  | exec => exact .inl rfl
  | skip => exact .inr rfl
  | waitIn | waitOut | done => simp [State.progAddr, hc] at h

/-! ### What is seen of the program (20_memory.md R42) -/

/-- The state with another program in place. -/
def State.withProg (s : State) (prog' : List Byte) : State := { s with prog := prog' }

@[simp] theorem State.withProg_pc (s : State) (prog' : List Byte) : (s.withProg prog').pc = s.pc := rfl
@[simp] theorem State.withProg_phase (s : State) (prog' : List Byte) : (s.withProg prog').phase = s.phase := rfl
@[simp] theorem State.withProg_ctl (s : State) (prog' : List Byte) : (s.withProg prog').ctl = s.ctl := rfl
@[simp] theorem State.withProg_cfg (s : State) (prog' : List Byte) : (s.withProg prog').cfg = s.cfg := rfl
@[simp] theorem State.len_withProg (s : State) (prog' : List Byte) : (s.withProg prog').len = prog'.length := rfl
@[simp] theorem State.progRead_withProg (s : State) (prog' : List Byte) (i : Nat) :
    (s.withProg prog').progRead i = prog'[i]? := rfl

/-- Programs of one length agree at an index outside them, and so at every index if at those inside. -/
theorem getElem?_eq_of_inside {l l' : List Byte} {i : Nat} (hlen : l'.length = l.length)
    (h : i < l.length → l'[i]? = l[i]?) : l'[i]? = l[i]? := by
  by_cases hi : i < l.length
  · exact h hi
  · have hi := Nat.le_of_not_lt hi
    rw [List.getElem?_eq_none hi, List.getElem?_eq_none (hlen.trans_le hi)]

/-- The fetch sees the length of the program, and the byte at `pc` if it fetches one. -/
theorem fetch_other_prog {s : State} {prog' : List Byte} (hlen : prog'.length = s.len)
    (hbyte : (∃ i, fetch s = .instr i) → prog'[s.pc]? = s.prog[s.pc]?) :
    fetch (s.withProg prog') = fetch s := by
  by_cases hp : s.phase = .running
  · by_cases hl : s.cfg.maxCodeSize < s.len
    · rw [fetch_tooLarge hp hl]
      exact fetch_tooLarge hp (hl.trans_eq hlen.symm)
    · have hread : prog'[s.pc]? = s.progRead s.pc := getElem?_eq_of_inside hlen fun hlt =>
        hbyte ((exists_fetch_instr_iff s).2 ⟨hp, Nat.le_of_not_lt hl, hlt⟩)
      simp [fetch, hp, hl, hlen, hread]
  · rw [fetch_ended hp]
    exact fetch_ended hp

/-- An instruction sees nothing of the program, unless it is a `[` that skips forward. -/
theorem exec_other_prog {i : Instr} {s t : State} (prog' : List Byte) (hskip : i = .loopOpen → s.cell ≠ 0)
    (h : exec i s = .next t) : exec i (s.withProg prog') = .next (t.withProg prog') := by
  cases exec_effect h with
  | advance i hi =>
    rw [exec_advance hi]
    rfl
  | halt => rfl
  | skip _ hz | runOff _ _ hz => exact absurd hz (hskip rfl)
  | enter hz hd => exact exec_loopOpen_push hz hd
  | overflow hz hd => exact exec_loopOpen_overflow hz hd
  | unopened hl => exact exec_loopClose_empty hl
  | back base p hl hz => exact exec_loopClose_back hl hz
  | exit base p hl hz => exact exec_loopClose_exit hl hz

theorem issue_wait {i : Instr} {c : Ctl} (hw : WaitsIn i c) (s : State) : issue i s = .next { s with ctl := c } := by
  cases hw <;> rfl

theorem issue_skip {s : State} (hz : s.cell = 0) : issue .loopOpen s = .next (startSkip s) := by
  simp [issue, hz]

/-- An instruction that neither waits for the host nor skips forward is executed at its issue. -/
theorem issue_eq_exec {i : Instr} {s : State} (hin : i ≠ .input) (hout : i ≠ .output)
    (hskip : i = .loopOpen → s.cell ≠ 0) : issue i s = exec i s := by
  cases i with
  | input => exact absurd rfl hin
  | output => exact absurd rfl hout
  | loopOpen => simp [issue, State.cellIsZero_eq_false (hskip rfl)]
  | right | left | inc | dec | loopClose | halt | nop => rfl

/-- Everything the issue of an instruction can do (10_state.md R35). -/
theorem issue_cases {i : Instr} {s t : State} (h : issue i s = .next t) :
    (∃ c, WaitsIn i c ∧ t = { s with ctl := c }) ∨
    (i = .loopOpen ∧ s.cell = 0 ∧ t = startSkip s) ∨
    (i ≠ .input ∧ i ≠ .output ∧ (i = .loopOpen → s.cell ≠ 0) ∧ exec i s = .next t) := by
  by_cases hin : i = .input
  · subst hin
    cases (issue_wait .input s).symm.trans h
    exact .inl ⟨_, .input, rfl⟩
  by_cases hout : i = .output
  · subst hout
    cases (issue_wait .output s).symm.trans h
    exact .inl ⟨_, .output, rfl⟩
  by_cases hskip : i = .loopOpen ∧ s.cell = 0
  · obtain ⟨rfl, hz⟩ := hskip
    cases (issue_skip hz).symm.trans h
    exact .inr (.inl ⟨rfl, hz, rfl⟩)
  · have hskip := not_and.1 hskip
    exact .inr (.inr ⟨hin, hout, hskip, (issue_eq_exec hin hout hskip).symm.trans h⟩)

/-- The issue of an instruction sees nothing of the program: a forward skip only begins in it. -/
theorem issue_other_prog {i : Instr} {s t : State} (prog' : List Byte) (h : issue i s = .next t) :
    issue i (s.withProg prog') = .next (t.withProg prog') := by
  rcases issue_cases h with ⟨c, hw, rfl⟩ | ⟨rfl, hz, rfl⟩ | ⟨hin, hout, hskip, hexec⟩
  · exact issue_wait hw _
  · exact issue_skip hz
  · exact (issue_eq_exec (s := s.withProg prog') hin hout hskip).trans (exec_other_prog prog' hskip hexec)

/-- A cycle in EXEC sees what its fetch sees. -/
theorem cycleExec_other_prog {s t : State} {prog' : List Byte} (hfetch : fetch (s.withProg prog') = fetch s)
    (h : cycleExec s = .next t) : cycleExec (s.withProg prog') = .next (t.withProg prog') := by
  cases hf : fetch s with
  | instr i =>
    simp only [cycleExec, hfetch, hf] at h ⊢
    exact issue_other_prog prog' h
  | outside => simp [cycleExec, step, hf] at h
  | ended | tooLarge | endOfBuffer =>
    simp only [cycleExec, step, hfetch, hf] at h ⊢
    cases h
    rfl

/-- A cycle in SKIP sees the scanned byte. -/
theorem cycleSkip_other_prog {s : State} {prog' : List Byte} (hbyte : prog'[s.scan]? = s.prog[s.scan]?) :
    cycleSkip (s.withProg prog') = (cycleSkip s).withProg prog' := by
  have hread : (s.withProg prog').progRead (s.withProg prog').scan = s.progRead s.scan := hbyte
  rw [cycleSkip, cycleSkip, hread]
  cases s.progRead s.scan with
  | none => rfl
  | some b =>
    simp only [apply_ite (State.withProg · prog')]
    rfl

/-- A cycle of a wait sees nothing of the program. -/
theorem cycle_wait_other_prog {i : Instr} {p : Pins} {s t : State} (prog' : List Byte) (hr : p.rst = none)
    (hw : WaitsIn i s.ctl) (h : cycle p s = .next t) :
    cycle p (s.withProg prog') = .next (t.withProg prog') := by
  have hi : i = .loopOpen → s.cell ≠ 0 := by
    rintro rfl
    cases hw
  rw [cycle_wait hr hw] at h
  rw [cycle_wait (s := s.withProg prog') hr hw, State.withProg_ctl]
  split_ifs at h ⊢ with hready
  · exact exec_other_prog prog' hi h
  · cases h
    rfl

/-- A cycle without reset sees the length of the program and the byte at `prog_addr`. -/
theorem cycle_other_prog {p : Pins} {s t : State} {prog' : List Byte} (hr : p.rst = none)
    (hlen : prog'.length = s.len) (hbyte : ∀ a, s.progAddr = some a → prog'[a]? = s.prog[a]?)
    (h : cycle p s = .next t) : cycle p (s.withProg prog') = .next (t.withProg prog') := by
  cases hc : s.ctl with
  | exec =>
    rw [cycle_of_exec hr hc] at h
    have hfetch := fetch_other_prog hlen fun hf => hbyte s.pc ((progAddr_of_exec hc _).2 ⟨rfl, hf⟩)
    exact (cycle_of_exec (s := s.withProg prog') hr hc).trans (cycleExec_other_prog hfetch h)
  | skip =>
    cases (cycle_of_skip hr hc).symm.trans h
    have hscan : prog'[s.scan]? = s.prog[s.scan]? := getElem?_eq_of_inside hlen fun hlt =>
      hbyte s.scan ((progAddr_of_skip hc _).2 ⟨rfl, hlt⟩)
    rw [← cycleSkip_other_prog hscan]
    exact cycle_of_skip hr hc
  | waitIn => exact cycle_wait_other_prog (i := .input) prog' hr (hc ▸ .input) h
  | waitOut => exact cycle_wait_other_prog (i := .output) prog' hr (hc ▸ .output) h
  | done =>
    cases (cycle_of_done hr hc).symm.trans h
    exact cycle_of_done hr hc

/-! ### No cycle writes the program (20_memory.md R40, R57) -/

/-- A cycle in EXEC takes the step, or changes no more than the hidden registers. -/
theorem cycleExec_cases {s t : State} (h : cycleExec s = .next t) : step s = .next t ∨ t.arch = s.arch := by
  cases hf : fetch s with
  | ended =>
    simp only [cycleExec, hf] at h
    cases h
    exact .inr rfl
  | tooLarge | endOfBuffer | outside =>
    simp only [cycleExec, hf] at h
    exact .inl h
  | instr i =>
    simp only [cycleExec, hf] at h
    rcases issue_cases h with ⟨c, -, rfl⟩ | ⟨-, -, rfl⟩ | ⟨-, -, -, hexec⟩
    · exact .inr rfl
    · exact .inr rfl
    · exact .inl ((step_of_instr hf).trans hexec)

theorem cycleSkip_prog_cfg (s : State) : (cycleSkip s).prog = s.prog ∧ (cycleSkip s).cfg = s.cfg := by
  unfold cycleSkip
  cases s.progRead s.scan with
  | none => exact ⟨rfl, rfl⟩
  | some b =>
    dsimp only
    split_ifs <;> exact ⟨rfl, rfl⟩

theorem cycle_wait_prog_cfg {i : Instr} {p : Pins} {s t : State} (hr : p.rst = none) (hw : WaitsIn i s.ctl)
    (h : cycle p s = .next t) : t.prog = s.prog ∧ t.cfg = s.cfg := by
  rw [cycle_wait hr hw] at h
  split_ifs at h
  · exact exec_prog_cfg h
  · cases h
    exact ⟨rfl, rfl⟩

theorem prog_cfg_of_arch_eq {s t : State} (h : t.arch = s.arch) : t.prog = s.prog ∧ t.cfg = s.cfg := by
  rw [(State.arch_eq_iff t s).1 h]
  exact ⟨rfl, rfl⟩

theorem cycle_prog_cfg {p : Pins} {s t : State} (hr : p.rst = none) (h : cycle p s = .next t) :
    t.prog = s.prog ∧ t.cfg = s.cfg := by
  cases hc : s.ctl with
  | exec =>
    rcases cycleExec_cases ((cycle_of_exec hr hc).symm.trans h) with hstep | harch
    · exact step_prog_cfg hstep
    · exact prog_cfg_of_arch_eq harch
  | skip =>
    cases (cycle_of_skip hr hc).symm.trans h
    exact cycleSkip_prog_cfg s
  | waitIn => exact cycle_wait_prog_cfg (i := .input) hr (hc ▸ .input) h
  | waitOut => exact cycle_wait_prog_cfg (i := .output) hr (hc ▸ .output) h
  | done =>
    cases (cycle_of_done hr hc).symm.trans h
    exact ⟨rfl, rfl⟩

/-! ### The streams (20_memory.md R45, R46, R54) -/

/-- What an instruction takes from the input is nothing or the first byte. -/
theorem State.inpAfter_cases (s : State) (i : Instr) :
    s.inpAfter i = s.inp ∨ i = .input ∧ ∃ b, s.inp = b :: s.inpAfter i := by
  by_cases hin : i = .input
  · subst hin
    cases hs : s.inp with
    | nil => exact .inl (by simp [State.inpAfter, hs])
    | cons b rest => exact .inr ⟨rfl, b, by simp [State.inpAfter, hs]⟩
  · exact .inl (s.inpAfter_eq hin)

/-- What an instruction writes to the output is nothing or one byte. -/
theorem State.outAfter_cases (s : State) (i : Instr) :
    s.outAfter i = s.out ∨ i = .output ∧ ∃ b, s.outAfter i = s.out ++ [b] := by
  by_cases hout : i = .output
  · subst hout
    exact .inr ⟨rfl, s.cell, rfl⟩
  · exact .inl (s.outAfter_eq hout)

/-! ### The holds (42_io.md R85, 70_reset_and_hazards.md R105) -/

/-- A wait lasts as long as the host does not answer. -/
theorem cycles_idle_of_wait {i : Instr} {s : State} (hw : WaitsIn i s.ctl) (n : Nat) :
    cycles (List.replicate n Pins.idle) s = .next s :=
  cycles_fixed fun p hp => by
    rw [List.eq_of_mem_replicate hp, cycle_wait rfl hw, Pins.idle_answers, if_neg Bool.false_ne_true]

theorem inReq_iff (s : State) : s.inReq = true ↔ s.ctl = .waitIn := beq_iff_eq

/-- The byte offered is the current cell, in WAIT_OUT. -/
theorem outByte_eq_some_iff (s : State) (b : Byte) : s.outByte = some b ↔ s.ctl = .waitOut ∧ s.cell = b := by
  rw [State.outByte, Option.ite_none_right_eq_some, Option.some.injEq]

end Sys2Proof.Machine
end

section
/-! The obligations of the program space and the streams (20_memory.md). -/

namespace Sys2Proof.Proofs
open Sys2Proof Sys2Proof.Machine

/-- Settles O4: in EXEC the byte at `prog_addr` is the one fetched and in SKIP the one scanned, and no other part of a
cycle reads the program. -/
theorem programReadsStayInside : Obligations.ProgramReadsStayInside := by
  refine ⟨fun s a h => ?_, fun s => ⟨fun hc => ?_, fun hc => ?_⟩, fun _ _ _ _ hr hlen hbyte h =>
    cycle_other_prog hr hlen hbyte h⟩
  · rcases progAddr_some h with hc | hc
    · obtain ⟨rfl, i, hf⟩ := (progAddr_of_exec hc a).1 h
      exact ⟨(fetch_instr_byte hf).1, .inl ⟨hc, rfl⟩⟩
    · obtain ⟨rfl, hlt⟩ := (progAddr_of_skip hc a).1 h
      exact ⟨hlt, .inr ⟨hc, rfl⟩⟩
  · rw [progAddr_of_exec hc, eq_self, true_and]
  · rw [progAddr_of_skip hc, eq_self, true_and]

/-- Settles O14: the program with the word placed is as long as it was or ends just after `pc`, so the engine accepts
it and fetches the word. -/
theorem placedWordRuns : Obligations.PlacedWordRuns := fun _ w hlen hpc =>
  ⟨decodeByte (tableByte 8 w), rfl, step_of_instr (fetch_withFetchWord 8 w hlen hpc)⟩

/-- Settles O15: each case of an instruction has a next state; a step stops only where `pc` is beyond the program. -/
theorem nothingStopsTheMachine : Obligations.NothingStopsTheMachine := ⟨exec_next, fun _ h => step_next h⟩

/-- Settles O19: no instruction writes the program, and a cycle takes the step, does one instruction, scans a byte or
changes hidden registers. -/
theorem programIsImmutable : Obligations.ProgramIsImmutable :=
  ⟨fun _ _ h => step_prog_cfg h, fun _ _ _ hr h => cycle_prog_cfg hr h⟩

/-- Settles O20: only `,` moves the input and only `.` the output, so no step moves both. -/
theorem streamsMoveInOrder : Obligations.StreamsMoveInOrder := by
  intro s t h
  rcases step_cases h with ⟨-, rfl⟩ | ⟨-, -, rfl⟩ | ⟨-, -, -, rfl⟩ | ⟨i, -, hexec⟩
  · exact ⟨.inl rfl, .inl rfl⟩
  · exact ⟨.inl rfl, .inl rfl⟩
  · exact ⟨.inl rfl, .inl rfl⟩
  · obtain ⟨-, -, hinp, hout⟩ := exec_data hexec
    rw [hinp, hout]
    refine ⟨(s.inpAfter_cases i).imp_right ?_, (s.outAfter_cases i).imp_right ?_⟩
    · rintro ⟨rfl, hb⟩
      exact ⟨hb, rfl⟩
    · rintro ⟨rfl, hb⟩
      exact ⟨hb, rfl⟩

/-- Settles O51: a wait without an answer leaves the state, and the two ports show which wait it is. -/
theorem holdsKeepTheState : Obligations.HoldsKeepTheState := by
  intro s n hc
  refine ⟨?_, inReq_iff s, by rw [outByte_eq_some_iff, eq_self, and_true]⟩
  rcases hc with hc | hc
  · exact cycles_idle_of_wait (i := .input) (hc ▸ .input) n
  · exact cycles_idle_of_wait (i := .output) (hc ▸ .output) n

end Sys2Proof.Proofs
end

section
/-! The decoder and the encoder (30_encoding.md R61, R62): decoding and encoding undo each other on the well-formed
instructions, byte by byte and so for whole texts, and the rows of the opcode table are the classes of the decoder. -/

namespace Sys2Proof

/-! ### One byte -/

theorem wellFormed_nop_iff (b : Byte) : (Instr.nop b).wellFormed = true ↔ b ∉ notNopBytes := by
  simp [Instr.wellFormed]

/-- The bytes the decoder tests for are the nine that are no NOP (43_halt_nop.md R91). -/
theorem notNopBytes_eq :
    notNopBytes = [Opcode.right, Opcode.left, Opcode.inc, Opcode.dec, Opcode.loopOpen, Opcode.loopClose,
      Opcode.output, Opcode.input, Config.terminator] := rfl

theorem decodeByte_of_notMem {b : Byte} (h : b ∉ notNopBytes) : decodeByte b = .nop b := by
  simp only [notNopBytes_eq, List.mem_cons, List.not_mem_nil, or_false, not_or] at h
  simp only [decodeByte, h, if_false]

theorem wellFormed_decodeByte (b : Byte) : (decodeByte b).wellFormed = true := by
  by_cases h : b ∈ notNopBytes
  · have named : ∀ b ∈ notNopBytes, (decodeByte b).wellFormed = true := by decide
    exact named b h
  · rw [decodeByte_of_notMem h, wellFormed_nop_iff]
    exact h

theorem decodeByte_encodeByte {i : Instr} (h : i.wellFormed = true) : decodeByte (encodeByte i) = i := by
  cases i with
  | nop b => exact decodeByte_of_notMem ((wellFormed_nop_iff b).1 h)
  | _ => decide

/-- A well-formed instruction is decoded from its byte and from no other. -/
theorem decodeByte_eq_iff {i : Instr} (h : i.wellFormed = true) (b : Byte) : decodeByte b = i ↔ b = encodeByte i :=
  ⟨fun hb => by rw [← hb, encodeByte_decodeByte], fun hb => by rw [hb, decodeByte_encodeByte h]⟩

theorem exists_decodeByte_eq_nop_iff (b : Byte) : (∃ c, decodeByte b = .nop c) ↔ b ∉ notNopBytes := by
  refine ⟨fun ⟨c, hc⟩ => ?_, fun h => ⟨b, decodeByte_of_notMem h⟩⟩
  have hwf : (Instr.nop c).wellFormed = true := hc ▸ wellFormed_decodeByte b
  rw [(decodeByte_eq_iff hwf b).1 hc]
  exact (wellFormed_nop_iff c).1 hwf

/-! ### The rows of the opcode table -/

theorem row_holds_encodeByte {i : Instr} (h : i.wellFormed = true) : i.row.holds (encodeByte i) = true := by
  cases i with
  | right => exact Laws.TableRow.right h
  | left => exact Laws.TableRow.left h
  | inc => exact Laws.TableRow.inc h
  | dec => exact Laws.TableRow.dec h
  | loopOpen => exact Laws.TableRow.loopOpen h
  | loopClose => exact Laws.TableRow.loopClose h
  | output => exact Laws.TableRow.output h
  | input => exact Laws.TableRow.input h
  | halt => exact Laws.TableRow.halt h
  | nop b => exact Laws.TableRow.nop b h

/-- A row that fixes all eight bits holds of one byte. -/
theorem holds_of_full_mask {m : String} {v b : Byte} (h : OpcodeRow.holds ⟨m, v, 0xFF, []⟩ b = true) : b = v := by
  have hmask : b &&& 255#8 = b := BitVec.and_allOnes
  simpa [OpcodeRow.holds, hmask] using h

/-- The row of the NOPs holds of the bytes that are not one of the nine. -/
theorem notMem_of_nop_row_holds {b c : Byte} (h : (Instr.nop c).row.holds b = true) : b ∉ notNopBytes := by
  simp only [OpcodeRow.holds, Instr.row, Bool.and_eq_true] at h
  simpa [notNopBytes] using h.2

/-- A byte is in the row of no instruction but the one it decodes to. -/
theorem row_decodeByte_of_holds {i : Instr} {b : Byte} (h : i.row.holds b = true) : i.row = (decodeByte b).row := by
  cases i with
  | nop c => rw [decodeByte_of_notMem (notMem_of_nop_row_holds h), Instr.row, Instr.row]
  | _ => rw [holds_of_full_mask h]; rfl

/-! ### Whole texts -/

theorem assemble_eq_map (p : List Instr) : assemble p = p.map encodeByte := List.map_eq_flatMap.symm

theorem disassemble_assemble {p : List Instr} (h : ∀ i ∈ p, i.wellFormed = true) : disassemble (assemble p) = p := by
  rw [assemble_eq_map, disassemble, List.map_map]
  exact (List.map_congr_left fun i hi => decodeByte_encodeByte (h i hi)).trans p.map_id

theorem length_assemble (p : List Instr) : (assemble p).length = p.length := by
  rw [assemble_eq_map, List.length_map]

theorem assemble_disassemble (bytes : List Byte) : assemble (disassemble bytes) = bytes := by
  rw [assemble_eq_map, disassemble, List.map_map]
  exact (List.map_congr_left fun b _ => encodeByte_decodeByte b).trans bytes.map_id

theorem wellFormed_of_mem_disassemble {bytes : List Byte} {i : Instr} (h : i ∈ disassemble bytes) :
    i.wellFormed = true := by
  obtain ⟨b, -, rfl⟩ := List.mem_map.1 h
  exact wellFormed_decodeByte b

theorem decode_encode_append {i : Instr} (rest : List Byte) (h : i.wellFormed = true) :
    decode (encode i ++ rest) = some (i, rest) := by
  rw [encode, List.singleton_append, decode, decodeByte_encodeByte h]

end Sys2Proof
end

section
/-! The step in each case of its checks (30_encoding.md R66, 60_exceptions.md R101). -/

namespace Sys2Proof.Machine

theorem step_tooLarge {s : State} (hp : s.phase = .running) (h : s.cfg.maxCodeSize < s.len) :
    step s = .next (s.raise .programTooLarge) := by
  rw [step, fetch_tooLarge hp h]

theorem step_endOfBuffer {s : State} (hp : s.phase = .running) (hl : s.len ≤ s.cfg.maxCodeSize)
    (h : s.pc = s.len) : step s = .next s.halt := by
  rw [step, fetch_endOfBuffer hp hl h]

theorem step_of_byte {s : State} {b : Byte} (hp : s.phase = .running) (hl : s.len ≤ s.cfg.maxCodeSize)
    (h : s.prog[s.pc]? = some b) : step s = exec (decodeByte b) s :=
  step_of_instr (fetch_instr hp hl h)

end Sys2Proof.Machine
end

section
/-! The obligations of the encoding and of the step (30_encoding.md). -/

namespace Sys2Proof.Proofs
open Sys2Proof Sys2Proof.Machine

/-- Settles O11: texts and instructions are read one byte at a time, and of one byte decoding and encoding undo each
other. -/
theorem programTextRoundTrip : Obligations.ProgramTextRoundTrip :=
  ⟨fun p h => ⟨disassemble_assemble h, length_assemble p⟩,
    fun bytes => ⟨assemble_disassemble bytes, fun _ hi => wellFormed_of_mem_disassemble hi⟩,
    fun _ rest h => decode_encode_append rest h⟩

/-- Settles O13: the two ends of the run change no more than `phase`, `status` and the controller. -/
theorem stepChecksInOrder : Obligations.StepChecksInOrder := fun s hp =>
  ⟨fun h => ⟨s.raise .programTooLarge, step_tooLarge hp h, rfl⟩,
    fun hl he => ⟨s.halt, step_endOfBuffer hp hl he, rfl⟩,
    fun hl hlt => ⟨s.prog[s.pc], List.getElem?_eq_getElem hlt, step_of_byte hp hl (List.getElem?_eq_getElem hlt)⟩⟩

/-- Settles O8: ten fixed words, each decoded. -/
theorem opcodeWordsDecode : Obligations.OpcodeWordsDecode := by
  unfold Obligations.OpcodeWordsDecode
  decide

/-- Settles O9: each named instruction is decoded from its own byte only, and a NOP from the bytes that remain. -/
theorem decodeOfEveryByte : Obligations.DecodeOfEveryByte := by
  intro b
  refine ⟨decodeByte_eq_iff rfl b, decodeByte_eq_iff rfl b, decodeByte_eq_iff rfl b, decodeByte_eq_iff rfl b,
    decodeByte_eq_iff rfl b, decodeByte_eq_iff rfl b, decodeByte_eq_iff rfl b, decodeByte_eq_iff rfl b,
    decodeByte_eq_iff rfl b, (exists_decodeByte_eq_nop_iff b).trans ?_⟩
  simp only [notNopBytes, List.mem_cons, List.not_mem_nil, or_false, not_or, ne_eq]

/-- Settles O10: the byte of an instruction is in its row, and a byte in a row decodes to an instruction of that row. -/
theorem opcodeRowsPartitionBytes : Obligations.OpcodeRowsPartitionBytes := by
  refine fun b => ⟨?_, fun _ _ h => row_decodeByte_of_holds h⟩
  have h := row_holds_encodeByte (wellFormed_decodeByte b)
  rwa [encodeByte_decodeByte] at h

/-- Settles O12. -/
theorem stepRunsDecodedInstruction : Obligations.StepRunsDecodedInstruction := fun _ _ hp hl hb => step_of_byte hp hl hb

end Sys2Proof.Proofs
end

section
/-! The data pointer and the cell (40_pointer_cell.md R69 to R74): the arithmetic of one instruction, a rule for runs of
instructions that leave `pc` to advance, and what sequences of moves and of cell changes amount to. -/

namespace Sys2Proof.Machine

/-! ### The arithmetic of one instruction, as integers -/

theorem nextPtr_int (size p : Nat) : ((nextPtr size p : Nat) : Int) = ((p : Int) + 1) % size := by
  rw [nextPtr, Int.natCast_mod, Nat.cast_succ]

theorem toNat_incByte (b : Byte) : (incByte b).toNat = (b.toNat + 1) % 256 := BitVec.toNat_add b 1

theorem incByte_int (b : Byte) : ((incByte b).toNat : Int) = ((b.toNat : Int) + 1) % 256 := by
  rw [toNat_incByte, Int.natCast_mod, Nat.cast_succ, Nat.cast_ofNat]

theorem decByte_int (b : Byte) : ((decByte b).toNat : Int) = ((b.toNat : Int) - 1) % 256 := by
  have hsub : (decByte b).toNat = (255 + b.toNat) % 256 := BitVec.toNat_sub b 1
  omega

/-! ### Net counts -/

/-- `a` with one added for each `up` among the instructions and one taken off for each `down` (R74). -/
def netFrom (up down : Instr) (a : Int) (is : List Instr) : Int := a + is.count up - is.count down

@[simp] theorem netFrom_nil (up down : Instr) (a : Int) : netFrom up down a [] = a := by simp [netFrom]

theorem netFrom_concat_up {up down : Instr} (hne : up ≠ down) (a : Int) (is : List Instr) :
    netFrom up down a (is ++ [up]) = netFrom up down a is + 1 := by
  simp [netFrom, hne]
  ring

theorem netFrom_concat_down {up down : Instr} (hne : up ≠ down) (a : Int) (is : List Instr) :
    netFrom up down a (is ++ [down]) = netFrom up down a is - 1 := by
  simp [netFrom, hne.symm]
  ring

/-! ### Runs of instructions that only advance -/

/-- A well-formed instruction that changes the data and leaves `pc` to advance. -/
def Straight (i : Instr) : Prop := i.wellFormed = true ∧ i ≠ .loopOpen ∧ i ≠ .loopClose ∧ i ≠ .halt

theorem Straight.of_move {i : Instr} (hi : i = .right ∨ i = .left) : Straight i := by
  rcases hi with rfl | rfl <;> exact ⟨rfl, by decide⟩

theorem Straight.of_cell_change {i : Instr} (hi : i = .inc ∨ i = .dec) : Straight i := by
  rcases hi with rfl | rfl <;> exact ⟨rfl, by decide⟩

theorem step_straight {i : Instr} {s : State} (hi : Straight i) (hp : s.phase = .running)
    (hl : s.len ≤ s.cfg.maxCodeSize) (hb : s.prog[s.pc]? = some (encodeByte i)) :
    step s = .next (s.dataAfter i).advance := by
  obtain ⟨hwf, hadv⟩ := hi
  rw [step_of_byte hp hl hb, decodeByte_encodeByte hwf, exec_advance hadv]

/-- A running engine at the text of such instructions takes one step for each. What holds of no instruction and of the
start, and is kept by each instruction in turn, holds of all of them and of the state the steps lead to. -/
theorem runFor_straight {is : List Instr} {s : State} {rest : List Byte} {P : List Instr → State → Prop}
    (his : ∀ i ∈ is, Straight i) (hp : s.phase = .running) (hl : s.len ≤ s.cfg.maxCodeSize)
    (htext : s.prog.drop s.pc = assemble is ++ rest) (hstart : P [] s)
    (hstep : ∀ i ∈ is, ∀ done u, P done u → P (done ++ [i]) (u.dataAfter i).advance) :
    ∃ t, runFor is.length s = .next t ∧ P is t := by
  induction is generalizing s P with
  | nil => exact ⟨s, rfl, hstart⟩
  | cons i is ih =>
    obtain ⟨hi, his⟩ := List.forall_mem_cons.1 his
    obtain ⟨hstepi, hstep⟩ := List.forall_mem_cons.1 hstep
    have htext : s.prog.drop s.pc = encodeByte i :: (assemble is ++ rest) := htext
    have hbyte : s.prog[s.pc]? = some (encodeByte i) := by rw [← List.head?_drop, htext, List.head?_cons]
    have hnext : s.prog.drop (s.pc + 1) = assemble is ++ rest := by rw [← List.tail_drop, htext, List.tail_cons]
    obtain ⟨t, hrun, ht⟩ := ih (s := (s.dataAfter i).advance) (P := fun done => P (i :: done)) his hp hl hnext
      (hstepi [] s hstart) (fun j hj done => hstep j hj (i :: done))
    exact ⟨t, (runFor_succ _ (step_straight hi hp hl hbyte)).trans hrun, ht⟩

/-! ### Moves -/

/-- `t` is `s` with `dp` moved by the net count of the moves, modulo TAPE_SIZE, and `pc` past them (R74). -/
structure MovedBy (s : State) (is : List Instr) (t : State) : Prop where
  frame : t.arch = ({ s with dp := t.dp, pc := s.pc + is.length } : State).arch
  dp : (t.dp : Int) = netFrom .right .left s.dp is % s.cfg.tapeSize

theorem MovedBy.refl {s : State} (hd : s.dp < s.cfg.tapeSize) : MovedBy s [] s where
  frame := rfl
  dp := by rw [netFrom_nil, ← Int.natCast_mod, Nat.mod_eq_of_lt hd]

theorem MovedBy.setDp {s u : State} {done : List Instr} (h : MovedBy s done u) {i : Instr} {p : Nat}
    (hdp : (p : Int) = netFrom .right .left s.dp (done ++ [i]) % s.cfg.tapeSize) :
    MovedBy s (done ++ [i]) (u.setDp p).advance where
  frame := by
    have hpc : u.pc = s.pc + done.length := (congrArg State.pc h.frame :)
    calc (u.setDp p).advance.arch = { u.arch with dp := p, pc := u.pc + 1 } := rfl
      _ = _ := by rw [h.frame, hpc, List.length_append]; rfl
  dp := hdp

/-- One more `>` or `<` moves `dp` by one more (R69, R70). -/
theorem MovedBy.concat {s u : State} {done : List Instr} {i : Instr} (hi : i = .right ∨ i = .left)
    (hcell : 0 < s.cfg.tapeSize) (h : MovedBy s done u) : MovedBy s (done ++ [i]) (u.dataAfter i).advance := by
  have hcfg : u.cfg = s.cfg := (congrArg State.cfg h.frame :)
  rcases hi with rfl | rfl
  · refine h.setDp (p := nextPtr u.cfg.tapeSize u.dp) ?_
    rw [hcfg, nextPtr_int, h.dp, Int.emod_add_emod, netFrom_concat_up (by decide)]
  · refine h.setDp (p := prevPtr u.cfg.tapeSize u.dp) ?_
    rw [hcfg, prevPtr_int _ hcell, h.dp, Int.emod_sub_emod, netFrom_concat_down (by decide)]

/-! ### Cell changes -/

/-- `t` is `s` with the current cell changed by the net count of the `+` and `-`, modulo 256, no other cell changed, and
`pc` past them (R74). -/
structure CellChangedBy (s : State) (is : List Instr) (t : State) : Prop where
  frame : t.arch = ({ s with tape := t.tape, pc := s.pc + is.length } : State).arch
  cell : ((Memory.read t.tape s.dp).toNat : Int) = netFrom .inc .dec (Memory.read s.tape s.dp).toNat is % 256
  other : ∀ a, a ≠ s.dp → Memory.read t.tape a = Memory.read s.tape a

theorem CellChangedBy.refl (s : State) : CellChangedBy s [] s where
  frame := rfl
  cell := by
    have hlt : (Memory.read s.tape s.dp).toNat < 256 := (Memory.read s.tape s.dp).isLt
    rw [netFrom_nil]
    omega
  other _ _ := rfl

theorem CellChangedBy.dp_eq {s t : State} {is : List Instr} (h : CellChangedBy s is t) : t.dp = s.dp :=
  (congrArg State.dp h.frame :)

theorem CellChangedBy.setCell {s u : State} {done : List Instr} (h : CellChangedBy s done u) {i : Instr} {v : Byte}
    (hv : (v.toNat : Int) = netFrom .inc .dec (Memory.read s.tape s.dp).toNat (done ++ [i]) % 256) :
    CellChangedBy s (done ++ [i]) (u.setCell v).advance := by
  have hpc : u.pc = s.pc + done.length := (congrArg State.pc h.frame :)
  have htape : (u.setCell v).advance.tape = Memory.write u.tape s.dp v := by rw [← h.dp_eq]; rfl
  refine ⟨?_, ?_, fun a ha => ?_⟩
  · calc (u.setCell v).advance.arch = { u.arch with tape := (u.setCell v).advance.tape, pc := u.pc + 1 } := rfl
      _ = _ := by rw [h.frame, hpc, List.length_append]; rfl
  · rw [htape, Memory.read_write_same, hv]
  · rw [htape, Memory.read_write_other _ _ ha, h.other a ha]

/-- One more `+` or `-` changes the cell by one more (R71, R72). -/
theorem CellChangedBy.concat {s u : State} {done : List Instr} {i : Instr} (hi : i = .inc ∨ i = .dec)
    (h : CellChangedBy s done u) : CellChangedBy s (done ++ [i]) (u.dataAfter i).advance := by
  have hcell : u.cell = Memory.read u.tape s.dp := by rw [State.cell, h.dp_eq]
  rcases hi with rfl | rfl
  · refine h.setCell (v := incByte u.cell) ?_
    rw [incByte_int, hcell, h.cell, Int.emod_add_emod, netFrom_concat_up (by decide)]
  · refine h.setCell (v := decByte u.cell) ?_
    rw [decByte_int, hcell, h.cell, Int.emod_sub_emod, netFrom_concat_down (by decide)]

end Sys2Proof.Machine
end

section
/-! The obligations of the data pointer and the cell (40_pointer_cell.md). -/

namespace Sys2Proof.Proofs
open Sys2Proof Sys2Proof.Machine

/-- Settles O21: the move down is the integer remainder of `prevPtr_int`, for which the tape needs a cell. -/
theorem pointerMovesWrap : Obligations.PointerMovesWrap :=
  ⟨decodeByte_encodeByte (i := .right) rfl, decodeByte_encodeByte (i := .left) rfl, fun s =>
    ⟨⟨_, exec_right s, rfl, rfl⟩, fun hcell => ⟨_, exec_left s, rfl, prevPtr_int s.dp hcell⟩⟩⟩

/-- Settles O22: the cell reads the byte written to it, and a write to it is seen at no other. -/
theorem cellArithmeticWraps : Obligations.CellArithmeticWraps := by
  refine ⟨decodeByte_encodeByte (i := .inc) rfl, decodeByte_encodeByte (i := .dec) rfl, fun s =>
    ⟨⟨_, exec_inc s, rfl, ?_, fun _ ha => exec_tape_other (exec_inc s) ha⟩,
      ⟨_, exec_dec s, rfl, ?_, fun _ ha => exec_tape_other (exec_dec s) ha⟩⟩⟩
  · rw [State.advance_tape, State.setCell_tape, Memory.read_write_same, toNat_incByte, State.cell]
  · rw [State.advance_tape, State.setCell_tape, Memory.read_write_same, decByte_int, State.cell]

/-- Settles O23: each instruction in turn moves `dp`, or changes the cell, by one, and a remainder may be taken once at
the end. -/
theorem netDisplacementLaws : Obligations.NetDisplacementLaws := by
  refine ⟨fun is s rest his hp hd hl htext => ?_, fun is s rest his hp hl htext => ?_⟩
  · obtain ⟨t, hrun, hmoved⟩ := runFor_straight (P := MovedBy s) (fun i hi => .of_move (his i hi)) hp hl htext
      (.refl hd) fun i hi _ _ h => h.concat (his i hi) (Nat.zero_lt_of_lt hd)
    exact ⟨t, hrun, hmoved.frame, hmoved.dp⟩
  · obtain ⟨t, hrun, hchanged⟩ := runFor_straight (P := CellChangedBy s) (fun i hi => .of_cell_change (his i hi)) hp hl
      htext (.refl s) fun i hi _ _ h => h.concat (his i hi)
    exact ⟨t, hrun, hchanged.frame, hchanged.cell, hchanged.other⟩

end Sys2Proof.Proofs
end

section
/-! Where a forward skip ends (41_loop_control.md R76): the bytes a scan reads on over, and that every scan reads on
over some and then ends at the next byte, or at the end of the program. -/

namespace Sys2Proof.Machine

/-- Bytes that a scan at depth `d` reads on over: no terminator, and no first part of them brings the depth to 0. -/
def ScansOver (d : Nat) (l : List Byte) : Prop :=
  Config.terminator ∉ l ∧ ∀ k, (l.take k).count Opcode.loopClose < d + (l.take k).count Opcode.loopOpen

theorem ScansOver.nil {d : Nat} (hd : 1 ≤ d) : ScansOver d [] :=
  ⟨List.not_mem_nil, fun k => by simpa using Nat.lt_of_succ_le hd⟩

/-- What a byte does to the depth is what it adds to the counts of brackets. -/
theorem nestAfter_count_cons {d : Nat} (hd : 1 ≤ d) (b : Byte) (l : List Byte) :
    nestAfter d b + l.count Opcode.loopOpen + (b :: l).count Opcode.loopClose =
      d + (b :: l).count Opcode.loopOpen + l.count Opcode.loopClose := by
  have hb := nestAfter_count (b := b) hd
  rw [← List.singleton_append, List.count_append, List.count_append]
  omega

/-- A scan reads on over bytes one by one. -/
theorem scansOver_cons_iff {d : Nat} (hd : 1 ≤ d) (b : Byte) (l : List Byte) :
    ScansOver d (b :: l) ↔ b ≠ Config.terminator ∧ nestAfter d b ≠ 0 ∧ ScansOver (nestAfter d b) l := by
  have htake : ∀ k, ((b :: l).take (k + 1)).count Opcode.loopClose <
      d + ((b :: l).take (k + 1)).count Opcode.loopOpen ↔
      (l.take k).count Opcode.loopClose < nestAfter d b + (l.take k).count Opcode.loopOpen := fun k => by
    have hb := nestAfter_count_cons hd b (l.take k)
    rw [List.take_succ_cons]
    omega
  have hnest : (∀ k, ((b :: l).take k).count Opcode.loopClose < d + ((b :: l).take k).count Opcode.loopOpen) ↔
      ∀ k, (l.take k).count Opcode.loopClose < nestAfter d b + (l.take k).count Opcode.loopOpen := by
    refine ⟨fun h k => (htake k).1 (h (k + 1)), fun h k => ?_⟩
    cases k with
    | zero => simpa using Nat.lt_of_succ_le hd
    | succ k => exact (htake k).2 (h k)
  have hpos : (∀ k, (l.take k).count Opcode.loopClose < nestAfter d b + (l.take k).count Opcode.loopOpen) →
      nestAfter d b ≠ 0 := fun h => Nat.pos_iff_ne_zero.1 (by simpa using h 0)
  simp only [ScansOver, hnest, List.mem_cons, not_or, ne_comm (a := b)]
  tauto

/-- A scan reads on over such bytes, its depth counting their brackets. -/
theorem skipScan_append {pre : List Byte} {i d d' : Nat} (hd : 1 ≤ d) (h : ScansOver d pre) (post : List Byte)
    (hcount : d' + pre.count Opcode.loopClose = d + pre.count Opcode.loopOpen) :
    skipScan (pre ++ post) i d = skipScan post (i + pre.length) d' := by
  induction pre generalizing i d with
  | nil => obtain rfl : d' = d := hcount; rfl
  | cons b pre ih =>
    obtain ⟨hterm, hpos, hrest⟩ := (scansOver_cons_iff hd b pre).1 h
    have hb := nestAfter_count_cons hd b pre
    rw [List.cons_append, skipScan_cons, if_neg hterm, if_neg hpos,
      ih (Nat.one_le_iff_ne_zero.2 hpos) hrest (by omega), List.length_cons, Nat.add_right_comm, Nat.add_assoc]

/-- The ways a scan of `l` from index `i` and depth `d` can end: it reads on over a part of `l`, and then finds its
match, or has no byte left or a terminator next. -/
inductive ScanEnd (i d : Nat) : List Byte → SkipResult → Prop where
  | found (pre post : List Byte) (hpre : ScansOver d pre) : ScanEnd i d (pre ++ post) (.found (i + pre.length))
  | runOff (pre post : List Byte) (d' : Nat) (hpre : ScansOver d pre)
      (hcount : d' + pre.count Opcode.loopClose = d + pre.count Opcode.loopOpen)
      (hend : post = [] ∨ post.head? = some Config.terminator) :
      ScanEnd i d (pre ++ post) (.runOff (i + pre.length) d')

/-- One more byte before the bytes of a scan. -/
theorem ScanEnd.cons {i d : Nat} {b : Byte} {l : List Byte} {r : SkipResult} (hd : 1 ≤ d)
    (hterm : b ≠ Config.terminator) (hpos : nestAfter d b ≠ 0) (h : ScanEnd (i + 1) (nestAfter d b) l r) :
    ScanEnd i d (b :: l) r := by
  have hover : ∀ {pre}, ScansOver (nestAfter d b) pre → ScansOver d (b :: pre) := fun hpre =>
    (scansOver_cons_iff hd b _).2 ⟨hterm, hpos, hpre⟩
  have hindex : ∀ pre : List Byte, i + 1 + pre.length = i + (b :: pre).length := fun pre => by
    rw [List.length_cons, Nat.add_right_comm, Nat.add_assoc]
  cases h with
  | found pre post hpre => exact hindex pre ▸ .found (b :: pre) post (hover hpre)
  | runOff pre post d' hpre hcount hend =>
    refine hindex pre ▸ .runOff (b :: pre) post d' (hover hpre) ?_ hend
    have hb := nestAfter_count_cons hd b pre
    omega

/-- Every scan ends so. -/
theorem skipScan_end (l : List Byte) (i : Nat) {d : Nat} (hd : 1 ≤ d) : ScanEnd i d l (skipScan l i d) := by
  induction l generalizing i d with
  | nil => exact .runOff [] [] d (.nil hd) rfl (.inl rfl)
  | cons b l ih =>
    rw [skipScan_cons]
    split_ifs with hterm hzero
    · exact .runOff [] (b :: l) d (.nil hd) rfl (.inr (congrArg some hterm))
    · exact .found [] (b :: l) (.nil hd)
    · exact (ih (i + 1) (Nat.one_le_iff_ne_zero.2 hzero)).cons hd hterm hzero

/-! ### The skip from a `[` -/

/-- At depth 1, where a skip begins: no first part of the bytes has more `]` than `[`. -/
theorem scansOver_one_iff (l : List Byte) :
    ScansOver 1 l ↔ Config.terminator ∉ l ∧
      ∀ k, (l.take k).count Opcode.loopClose ≤ (l.take k).count Opcode.loopOpen := by
  simp only [ScansOver, Nat.add_comm 1, Nat.lt_succ_iff]

/-- The bytes from `a` on, where the first of them are known. -/
theorem between_of_drop_eq {prog pre post : List Byte} {a : Nat} (h : prog.drop a = pre ++ post) :
    between prog a (a + pre.length) = pre := by
  rw [between_eq_take_drop, Nat.add_sub_cancel_left, h, List.take_left]

theorem drop_eq_between_append (prog : List Byte) {a b : Nat} (h : a ≤ b) :
    prog.drop a = between prog a b ++ prog.drop b := by
  conv_lhs => rw [← List.take_append_drop (b - a) (prog.drop a), List.drop_drop, Nat.add_sub_cancel' h]
  rw [between_eq_take_drop]

theorem length_between {prog : List Byte} (a : Nat) {b : Nat} (h : b ≤ prog.length) :
    (between prog a b).length = b - a := by
  rw [between, List.length_drop, List.length_take, Nat.min_eq_left h]

/-- A skip reads no terminator on its way to the match. -/
theorem terminator_notMem_of_skipMatch_found {prog : List Byte} {p m : Nat} (h : skipMatch prog p = .found m) :
    Config.terminator ∉ between prog (p + 1) m := by
  have hend := skipScan_end (prog.drop (p + 1)) (p + 1) le_rfl
  rw [← skipMatch, h] at hend
  generalize hl : prog.drop (p + 1) = l at hend
  cases hend with
  | found pre post hpre =>
    rw [between_of_drop_eq hl]
    exact hpre.1

/-- A `]` after balanced bytes without a terminator is the match of the `[` before them (R76 (b)). -/
theorem skipMatch_eq_found {prog : List Byte} {p m : Nat} (hlt : p < m) (hm : prog[m]? = some Opcode.loopClose)
    (hterm : Config.terminator ∉ between prog (p + 1) m) (hb : BracketBalanced (between prog (p + 1) m)) :
    skipMatch prog p = .found m := by
  obtain ⟨hsame, hnest⟩ := hb
  obtain ⟨hmlt, hget⟩ := List.getElem?_eq_some_iff.1 hm
  have hover : ScansOver 1 (between prog (p + 1) m) := (scansOver_one_iff _).2 ⟨hterm, hnest⟩
  have hclose : Opcode.loopClose ≠ Config.terminator := by decide
  rw [skipMatch, drop_eq_between_append prog hlt, skipScan_append (d' := 1) le_rfl hover _ (by rw [hsame]),
    List.drop_eq_getElem_cons hmlt, hget, skipScan_cons, if_neg hclose, nestAfter_close, if_pos rfl,
    length_between _ hmlt.le, Nat.add_sub_cancel' hlt]

/-- A skip that runs off has read on over the bytes up to where it ends, and there is nothing more to read. -/
theorem skipMatch_runOff {prog : List Byte} {p e d : Nat} (hp : p < prog.length) (h : skipMatch prog p = .runOff e d) :
    p < e ∧ e ≤ prog.length ∧ (e = prog.length ∨ prog[e]? = some Config.terminator) ∧
      ScansOver 1 (between prog (p + 1) e) ∧
      d + (between prog (p + 1) e).count Opcode.loopClose = 1 + (between prog (p + 1) e).count Opcode.loopOpen := by
  have hend := skipScan_end (prog.drop (p + 1)) (p + 1) le_rfl
  rw [← skipMatch, h] at hend
  generalize hl : prog.drop (p + 1) = l at hend
  cases hend with
  | runOff pre post _ hpre hcount hstop =>
    rw [between_of_drop_eq hl]
    have hlen : prog.length - (p + 1) = pre.length + post.length := by
      rw [← List.length_drop, hl, List.length_append]
    refine ⟨by omega, by omega, ?_, hpre, hcount⟩
    rcases hstop with rfl | hhead
    · rw [List.length_nil] at hlen
      exact .inl (by omega)
    · rw [← List.head?_drop, ← List.drop_drop, hl, List.drop_left]
      exact .inr hhead

end Sys2Proof.Machine
end

section
/-! Loops as the run sees them (41_loop_control.md R80, R82): the top of the stack, the `]` of a loop at the end of a
pass, and the run that the passes of a loop make up. -/

namespace Sys2Proof.Machine

/-- The top of nested entries is the bracket-count match of `pc`: a `[` nearer to `pc` has before it as many `[` as `]`
or more, and so fewer behind it. -/
theorem Nested.top_isMatchOf {prog : List Byte} {pc p : Nat} {base : List Nat} (h : Nested prog pc (base ++ [p])) :
    IsMatchOf prog pc p := by
  obtain ⟨-, hp, hlt, hsame, hnest⟩ := (nested_concat_iff ..).1 h
  refine ⟨hlt, hp, hsame, fun u hpu hupc hu hsame' => ?_⟩
  have hsplit : between prog (p + 1) pc = between prog (p + 1) u ++ (Opcode.loopOpen :: between prog (u + 1) pc) := by
    rw [between_append prog hpu hupc.le, between_append prog (Nat.le_succ u) hupc, between_succ hu,
      List.singleton_append]
  have hne : Opcode.loopOpen ≠ Opcode.loopClose := by decide
  have hbefore := hnest (between prog (p + 1) u).length
  rw [hsplit, List.take_left] at hbefore
  rw [SameCount, hsplit, List.count_append, List.count_append, List.count_cons_self, List.count_cons_of_ne hne,
    hsame'] at hsame
  omega

theorem runFor_prog_cfg {n : Nat} {s t : State} (h : runFor n s = .next t) : t.prog = s.prog ∧ t.cfg = s.cfg := by
  induction n generalizing s with
  | zero =>
    cases h
    exact ⟨rfl, rfl⟩
  | succ n ih =>
    cases hs : step s with
    | next u =>
      rw [runFor_succ n hs] at h
      obtain ⟨hprog, hcfg⟩ := step_prog_cfg hs
      obtain ⟨hprog', hcfg'⟩ := ih h
      exact ⟨hprog'.trans hprog, hcfg'.trans hcfg⟩
    | fault r => simp [runFor, hs] at h
    | refused r => simp [runFor, hs] at h

theorem Reaches.prog_cfg {s t : State} (h : Reaches s t) : t.prog = s.prog ∧ t.cfg = s.cfg := by
  obtain ⟨n, hn⟩ := h
  exact runFor_prog_cfg hn

/-- A program the engine runs, with a `]` at `q`: the end of a loop. -/
def State.LoopEndsAt (s : State) (q : Nat) : Prop :=
  s.len ≤ s.cfg.maxCodeSize ∧ s.prog[q]? = some Opcode.loopClose

theorem State.LoopEndsAt.along_run {s t : State} {q : Nat} (h : s.LoopEndsAt q) (hr : Reaches s t) :
    t.LoopEndsAt q := by
  obtain ⟨hprog, hcfg⟩ := hr.prog_cfg
  rwa [State.LoopEndsAt, State.len, hprog, hcfg]

theorem fetch_loopClose {s : State} {q : Nat} (h : s.LoopEndsAt q) (hp : s.phase = .running) (hpc : s.pc = q) :
    fetch s = .instr .loopClose :=
  (fetch_instr_iff s _).2 ⟨hp, h.1, _, hpc ▸ h.2, (decodeByte_eq_loopClose_iff _).2 rfl⟩

/-- A `]` whose loop goes on. -/
theorem step_loopClose_back {s : State} {base : List Nat} {p : Nat} (hf : fetch s = .instr .loopClose)
    (hl : s.lstack = base ++ [p]) (hz : s.cell ≠ 0) : step s = .next (s.goto (p + 1)) := by
  rw [step_of_instr hf, exec_loopClose_back hl hz]

/-- A `]` whose loop ends. -/
theorem step_loopClose_exit {s : State} {base : List Nat} {p : Nat} (hf : fetch s = .instr .loopClose)
    (hl : s.lstack = base ++ [p]) (hz : s.cell = 0) : step s = .next s.pop.advance := by
  rw [step_of_instr hf, exec_loopClose_exit hl hz]

/-- The state past the loop. -/
theorem arch_pop_advance {s : State} {base : List Nat} {p : Nat} (hl : s.lstack = base ++ [p]) :
    s.pop.advance.arch = ({ s with lstack := base, pc := s.pc + 1 } : State).arch := by
  have hbase : s.lstack.dropLast = base := by rw [hl, List.dropLast_concat]
  rw [← hbase]
  rfl

/-- The passes of a loop are a run, which its `]` takes past the loop (R80). -/
theorem WhilePasses.reaches_past_loop {p q : Nat} {base : List Nat} {s u : State} (h : WhilePasses p q base s u)
    (hend : s.LoopEndsAt q) :
    ∃ t, Reaches s t ∧ t.arch = ({ u with lstack := base, pc := q + 1 } : State).arch := by
  induction h with
  | last s t hpass hz =>
    obtain ⟨-, -, hrun, hpc, hl, hp⟩ := hpass
    have hf := fetch_loopClose (hend.along_run hrun) hp hpc
    exact ⟨_, hrun.trans (.step (step_loopClose_exit hf hl hz)), hpc ▸ arch_pop_advance hl⟩
  | again s t u hpass hz _ ih =>
    obtain ⟨-, -, hrun, hpc, hl, hp⟩ := hpass
    have hf := fetch_loopClose (hend.along_run hrun) hp hpc
    have hback : Reaches s (t.goto (p + 1)) := hrun.trans (.step (step_loopClose_back hf hl hz))
    obtain ⟨w, hw, harch⟩ := ih (hend.along_run hback)
    exact ⟨w, hback.trans hw, harch⟩

/-- A `]` that goes back to itself is fetched again after every step (R93). -/
theorem runFor_of_self_loop {s : State} {base : List Nat} {p : Nat} (hf : fetch s = .instr .loopClose)
    (hl : s.lstack = base ++ [p]) (hpc : s.pc = p + 1) (hz : s.cell ≠ 0) (n : Nat) :
    ∃ t, runFor n s = .next t ∧ t.arch = s.arch := by
  induction n generalizing s with
  | zero => exact ⟨s, rfl, rfl⟩
  | succ n ih =>
    have hstep := step_loopClose_back hf hl hz
    rw [← hpc] at hstep
    have hsame : (s.goto s.pc).arch = s.arch := rfl
    obtain ⟨t, hrun, harch⟩ := ih ((fetch_eq_of_arch_eq hsame).trans hf) hl hpc hz
    exact ⟨t, (runFor_succ n hstep).trans hrun, harch.trans hsame⟩

end Sys2Proof.Machine
end

section
/-! The obligations of the loops (41_loop_control.md). -/

namespace Sys2Proof.Proofs
open Sys2Proof Sys2Proof.Machine

/-- Settles O24: the scan reads on over exactly the balanced bytes without a terminator, and ends at the `]` after
them. -/
theorem skipFindsExactlyTheMatch : Obligations.SkipFindsExactlyTheMatch := by
  refine fun prog p m => ⟨fun h => ?_, fun ⟨hlt, _, hm, hterm, hb⟩ => skipMatch_eq_found hlt hm hterm hb⟩
  obtain ⟨hlt, hm, hb⟩ := skipMatch_found h
  exact ⟨hlt, (List.getElem?_eq_some_iff.1 hm).1, hm, terminator_notMem_of_skipMatch_found h, hb⟩

/-- Settles O25: the depth is 1 more than a surplus of `[`, of which there are no more than bytes scanned. -/
theorem skipRunsOffOnlyAtTheEnd : Obligations.SkipRunsOffOnlyAtTheEnd := by
  intro prog p e d hp h
  obtain ⟨hpe, hlen, hstop, hover, hcount⟩ := skipMatch_runOff hp h
  obtain ⟨hterm, hnest⟩ := (scansOver_one_iff _).1 hover
  refine ⟨hpe, hlen, hstop, hterm, ?_, hcount, hnest⟩
  have hopens : (between prog (p + 1) e).count Opcode.loopOpen ≤ e - (p + 1) :=
    length_between (p + 1) hlen ▸ List.count_le_length
  omega

/-- Settles O27. -/
theorem landedCloseIsNotExecuted : Obligations.LandedCloseIsNotExecuted := by
  intro s m hf hz hm
  obtain ⟨-, hclose, -⟩ := skipMatch_found hm
  obtain ⟨hp, -⟩ := (fetch_instr_iff s _).1 hf
  exact ⟨hclose, _, (step_of_instr hf).trans (exec_loopOpen_skip hz hm), rfl, rfl, rfl, hp⟩

/-- Settles O29: the step of the `[` and then the passes are one run, by induction over the passes; the `]` between two
passes is the one the skip finds. -/
theorem loopRunsAsWhile : Obligations.LoopRunsAsWhile := by
  intro s q hf hroom hm
  have hstep := step_of_instr hf
  refine ⟨fun hz => ⟨_, hstep.trans (exec_loopOpen_skip hz hm), rfl⟩, fun hz u hpasses => ?_⟩
  obtain ⟨-, hlen, -⟩ := (fetch_instr_iff s _).1 hf
  obtain ⟨-, hclose, -⟩ := skipMatch_found hm
  have henter : Reaches s (s.push s.pc).advance := .step (hstep.trans (exec_loopOpen_push hz hroom))
  obtain ⟨t, hrun, harch⟩ := hpasses.reaches_past_loop ⟨hlen, hclose⟩
  exact ⟨t, henter.trans hrun, harch⟩

/-- Settles O30: the step of such a `]` changes at most the hidden registers, so it comes again. -/
theorem selfLoopNeverEnds : Obligations.SelfLoopNeverEnds := fun _ _ _ hf hl hpc hz n =>
  runFor_of_self_loop hf hl hpc hz n

/-- Settles O46: the live entries of a run are nested, and the top of nested entries is the match. -/
theorem stackTopIsTheMatch : Obligations.StackTopIsTheMatch := by
  refine ⟨fun s base p hinv hl => ?_, fun cfg prog inp n t base p hcfg hrun hl => ?_⟩
  · exact Nested.top_isMatchOf (hl ▸ hinv.nested)
  · obtain ⟨t', hrun', hinv, hprog, -⟩ := (RunInv.at_reset hcfg prog inp).along_run n
    cases hrun.symm.trans hrun'
    have htop := Nested.top_isMatchOf (hl ▸ hinv.nested)
    rwa [hprog] at htop

/-- Settles O26: the four cases of `[`. -/
theorem openEntersOrSkips : Obligations.OpenEntersOrSkips :=
  ⟨decodeByte_encodeByte (i := .loopOpen) rfl, fun _ =>
    ⟨fun hz _ hm => ⟨_, exec_loopOpen_skip hz hm, rfl⟩,
      fun hz _ _ hm => ⟨_, exec_loopOpen_runOff hz hm, rfl⟩,
      fun hz hroom => ⟨_, exec_loopOpen_push hz hroom, rfl⟩,
      fun hz hfull => ⟨_, exec_loopOpen_overflow hz hfull.ge, rfl⟩⟩⟩

/-- Settles O28: the three cases of `]`. -/
theorem closeLoopsOrExits : Obligations.CloseLoopsOrExits :=
  ⟨decodeByte_encodeByte (i := .loopClose) rfl, fun _ =>
    ⟨fun hempty => ⟨_, exec_loopClose_empty (List.eq_nil_of_length_eq_zero hempty), rfl⟩,
      fun _ _ hl => ⟨fun hz => ⟨_, exec_loopClose_back hl hz, rfl⟩,
        fun hz => ⟨_, exec_loopClose_exit hl hz, arch_pop_advance hl⟩⟩⟩⟩

end Sys2Proof.Proofs
end

section
/-! What `,` does at each answer the input interface can give (42_io.md R86, R87). -/

namespace Sys2Proof.Machine

theorem State.inAnswer_of_cons {s : State} {b : Byte} {rest : List Byte} (h : s.inp = b :: rest) :
    s.inAnswer = .byte b := by
  rw [State.inAnswer, h]

theorem State.inAnswer_of_nil {s : State} (h : s.inp = []) : s.inAnswer = .eof := by
  rw [State.inAnswer, h]

theorem State.consume_of_cons {s : State} {b : Byte} {rest : List Byte} (h : s.inp = b :: rest) :
    s.consume = { s with inp := rest } := by
  rw [State.consume, h, List.tail_cons]

/-- EOF consumes nothing (20_memory.md R45). -/
theorem State.consume_of_nil {s : State} (h : s.inp = []) : s.consume = s := by
  rw [State.consume, h, List.tail_nil, ← h]

theorem exec_input_byte {s : State} {b : Byte} {rest : List Byte} (h : s.inp = b :: rest) :
    exec .input s = .next (({ s with inp := rest } : State).setCell b).advance := by
  rw [exec_input, State.inAnswer_of_cons h, State.consume_of_cons h, State.receive]

theorem exec_input_keep {s : State} (h : s.inp = []) (hp : s.cfg.eofPolicy = .keep) :
    exec .input s = .next s.advance := by
  rw [exec_input, State.inAnswer_of_nil h, State.consume_of_nil h, State.receive, hp]

theorem exec_input_zero {s : State} (h : s.inp = []) (hp : s.cfg.eofPolicy = .zero) :
    exec .input s = .next (s.setCell 0).advance := by
  rw [exec_input, State.inAnswer_of_nil h, State.consume_of_nil h, State.receive, hp]

end Sys2Proof.Machine
end

section
/-! The obligations of the byte streams (42_io.md). -/

namespace Sys2Proof.Proofs
open Sys2Proof Sys2Proof.Machine

/-- Settles O32: the three answers of the input; the cell reads the byte written to it, and a write to it is seen at no
other. -/
theorem inputFillsTheCell : Obligations.InputFillsTheCell := by
  refine ⟨decodeByte_encodeByte (i := .input) rfl, fun s =>
    ⟨fun b rest hinp => ?byte, fun hinp hkeep => ?keep, fun hinp hzero => ?zero⟩⟩
  case byte =>
    have hexec := exec_input_byte hinp
    exact ⟨_, hexec, rfl, Memory.read_write_same s.tape s.dp b, fun _ ha => exec_tape_other hexec ha⟩
  case keep => exact ⟨_, exec_input_keep hinp hkeep, rfl⟩
  case zero =>
    have hexec := exec_input_zero hinp hzero
    exact ⟨_, hexec, rfl, Memory.read_write_same s.tape s.dp 0, fun _ ha => exec_tape_other hexec ha⟩

/-- Settles O31. -/
theorem outputAppendsTheCell : Obligations.OutputAppendsTheCell :=
  ⟨decodeByte_encodeByte (i := .output) rfl, fun s => ⟨_, exec_output s, rfl⟩⟩

end Sys2Proof.Proofs
end

section
/-! The obligations of the halting instruction, the NOP and the end of the buffer (43_halt_nop.md). -/

namespace Sys2Proof.Proofs
open Sys2Proof Sys2Proof.Machine

/-- Settles O34. -/
theorem terminatorHalts : Obligations.TerminatorHalts :=
  ⟨decodeByte_encodeByte (i := .halt) rfl, fun s => ⟨_, exec_halt s, rfl, s.halt_ctl⟩⟩

/-- Settles O35: a well-formed NOP is the instruction its own byte decodes to. -/
theorem nopOnlyAdvances : Obligations.NopOnlyAdvances := fun b s hwf =>
  ⟨decodeByte_encodeByte hwf, _, exec_nop b s, rfl⟩

/-- Settles O36: the step's check for the end of the buffer asks nothing of the loop stack. -/
theorem endOfBufferHalts : Obligations.EndOfBufferHalts := fun s hp hl hpc =>
  have no_byte_at_pc : s.prog[s.pc]? = none := List.getElem?_eq_none hpc.ge
  ⟨no_byte_at_pc, _, step_endOfBuffer hp hl hpc, rfl⟩

end Sys2Proof.Proofs
end

section
/-! The fatal errors (60_exceptions.md): their codes, and the cause of each as the condition on a running state under
which the step raises it. -/

namespace Sys2Proof.Machine

/-! ### The codes (60_exceptions.md R97) -/

theorem FatalError.code_cases (f : FatalError) : f.code = 3 ∨ f.code = 4 ∨ f.code = 5 := by
  cases f with
  | programTooLarge => exact .inl rfl
  | controlStackOverflow => exact .inr (.inl rfl)
  | unbalancedBracket => exact .inr (.inr rfl)

theorem FatalError.code_ne_zero (f : FatalError) : f.code ≠ 0 := by
  rcases f.code_cases with h | h | h <;> rw [h] <;> decide

theorem FatalError.code_injective : Function.Injective FatalError.code := by
  intro f g
  cases f <;> cases g <;> decide

/-! ### The causes (60_exceptions.md R96, R98, R99) -/

/-- The cause of each fatal error in a running state. A stack above its capacity, which no run has, counts as full
(log entry 11). -/
def FatalCause (s : State) : FatalError → Prop
  | .programTooLarge => s.cfg.maxCodeSize < s.len
  | .controlStackOverflow => fetch s = .instr .loopOpen ∧ s.cell ≠ 0 ∧ s.cfg.stackCap ≤ s.depth
  | .unbalancedBracket =>
    fetch s = .instr .loopClose ∧ s.depth = 0 ∨
      fetch s = .instr .loopOpen ∧ s.cell = 0 ∧ ∃ e d, skipMatch s.prog s.pc = .runOff e d

/-- A step that finds a cause raises that error. -/
theorem step_of_fatalCause {s : State} {f : FatalError} (hp : s.phase = .running) (h : FatalCause s f) :
    ∃ t, step s = .next t ∧ t.arch = (s.raise f).arch := by
  cases f with
  | programTooLarge => exact ⟨_, step_tooLarge hp h, rfl⟩
  | controlStackOverflow =>
    obtain ⟨hf, hz, hfull⟩ := h
    exact ⟨_, (step_of_instr hf).trans (exec_loopOpen_overflow hz hfull), rfl⟩
  | unbalancedBracket =>
    rcases h with ⟨hf, hempty⟩ | ⟨hf, hz, e, d, hm⟩
    · exact ⟨_, (step_of_instr hf).trans (exec_loopClose_empty (List.eq_nil_of_length_eq_zero hempty)), rfl⟩
    · exact ⟨_, (step_of_instr hf).trans (exec_loopOpen_runOff hz hm), rfl⟩

/-- An instruction that ends in FAULTED has found a cause and raised that error. -/
theorem fatalCause_of_exec {i : Instr} {s t : State} (hf : fetch s = .instr i) (h : exec i s = .next t)
    (ht : t.phase = .faulted) : ∃ f, FatalCause s f ∧ t.arch = (s.raise f).arch ∧ t.ctl = .done := by
  obtain ⟨hp, -⟩ := (fetch_instr_iff s i).1 hf
  cases exec_effect h with
  | runOff e d hz hm => exact ⟨.unbalancedBracket, .inr ⟨hf, hz, e, d, hm⟩, rfl, rfl⟩
  | overflow hz hfull => exact ⟨.controlStackOverflow, ⟨hf, hz, hfull⟩, rfl, rfl⟩
  | unopened hl => exact ⟨.unbalancedBracket, .inl ⟨hf, List.length_eq_zero_iff.2 hl⟩, rfl, rfl⟩
  | halt => cases ht
  | advance | skip | enter | back | exit => cases hp.symm.trans ht

/-- A step into FAULTED has found a cause and raised that error. -/
theorem fatalCause_of_step {s t : State} (hp : s.phase = .running) (h : step s = .next t) (ht : t.phase = .faulted) :
    ∃ f, FatalCause s f ∧ t.arch = (s.raise f).arch ∧ t.ctl = .done := by
  rcases step_cases h with ⟨hended, -⟩ | ⟨-, hlarge, rfl⟩ | ⟨-, -, -, rfl⟩ | ⟨i, hf, hexec⟩
  · exact absurd hp hended
  · exact ⟨.programTooLarge, hlarge, rfl, rfl⟩
  · cases ht
  · exact fatalCause_of_exec hf hexec ht

/-- The architectural view shows which error was raised. -/
theorem raised_of_arch_eq {s t : State} {f : FatalError} (h : t.arch = (s.raise f).arch) :
    t.phase = .faulted ∧ t.status = f.code :=
  ⟨congrArg State.phase h, congrArg State.status h⟩

/-- A step ends in FAULTED with the code of an error exactly when the cause of that error is there. -/
theorem step_raises_iff {s t : State} (hp : s.phase = .running) (h : step s = .next t) (f : FatalError) :
    t.phase = .faulted ∧ t.status = f.code ↔ FatalCause s f := by
  refine ⟨fun ⟨ht, hcode⟩ => ?_, fun hcause => ?_⟩
  · obtain ⟨g, hcause, harch, -⟩ := fatalCause_of_step hp h ht
    obtain ⟨-, hg⟩ := raised_of_arch_eq harch
    exact FatalError.code_injective (hg.symm.trans hcode) ▸ hcause
  · obtain ⟨u, hstep, harch⟩ := step_of_fatalCause hp hcause
    cases h.symm.trans hstep
    exact raised_of_arch_eq harch

end Sys2Proof.Machine
end

section
/-! The obligations of the fatal errors (60_exceptions.md). -/

namespace Sys2Proof.Proofs
open Sys2Proof Sys2Proof.Machine

/-- Settles O38: the step has raised one of the three errors, and `raise` changes no more. -/
theorem fatalErrorsArePrecise : Obligations.FatalErrorsArePrecise := by
  intro s t hp hstep ht
  obtain ⟨f, -, harch, hctl⟩ := fatalCause_of_step hp hstep ht
  obtain ⟨-, hstatus⟩ := raised_of_arch_eq harch
  rw [hstatus]
  exact ⟨harch, hctl, f.code_cases⟩

/-- Settles O39: each clause is `step_raises_iff` for its error; at most STACK_CAP live entries are a full stack exactly
when they are STACK_CAP. -/
theorem fatalErrorsHaveTheirCauses : Obligations.FatalErrorsHaveTheirCauses := by
  intro s t hp hdepth hstep
  have raises_iff := step_raises_iff hp hstep
  have full_iff : s.depth = s.cfg.stackCap ↔ s.cfg.stackCap ≤ s.depth := hdepth.ge_iff_eq.symm
  rw [full_iff]
  exact ⟨raises_iff .programTooLarge, raises_iff .controlStackOverflow, raises_iff .unbalancedBracket⟩

/-- Settles O37. -/
theorem statusCodesAreDistinct : Obligations.StatusCodesAreDistinct :=
  ⟨rfl, rfl, rfl, fun f _ => ⟨f.code_ne_zero, fun h => FatalError.code_injective h⟩⟩

end Sys2Proof.Proofs
end

section
/-! The cycle with `rst` high, and the step on the two stream instructions read from their bytes
(70_reset_and_hazards.md). -/

namespace Sys2Proof.Machine

/-- Reset wins over every controller state, and of the old state it reads the build alone. -/
theorem cycle_rst {p : Pins} {l : Load} (h : p.rst = some l) (s : State) :
    cycle p s = .next (State.resetWith s.cfg l.prog l.inp) := by
  rw [cycle, h]

theorem step_of_encodeByte {i : Instr} {s : State} (hwf : i.wellFormed = true) (hp : s.phase = .running)
    (hl : s.len ≤ s.cfg.maxCodeSize) (hcode : s.prog[s.pc]? = some (encodeByte i)) : step s = exec i s := by
  rw [step_of_byte hp hl hcode, decodeByte_encodeByte hwf]

theorem step_input_byte {s : State} {b : Byte} {rest : List Byte} (hp : s.phase = .running)
    (hl : s.len ≤ s.cfg.maxCodeSize) (hcode : s.prog[s.pc]? = some Opcode.input) (hinp : s.inp = b :: rest) :
    step s = .next (({ s with inp := rest } : State).setCell b).advance := by
  rw [step_of_encodeByte (i := .input) rfl hp hl hcode, exec_input_byte hinp]

theorem step_output {s : State} {v : Byte} (hp : s.phase = .running) (hl : s.len ≤ s.cfg.maxCodeSize)
    (hcode : s.prog[s.pc]? = some Opcode.output) (hcell : s.cell = v) : step s = .next (s.outWrite v).advance := by
  rw [step_of_encodeByte (i := .output) rfl hp hl hcode, exec_output, hcell]

end Sys2Proof.Machine
end

section
/-! The obligations of reset and of the hazards between adjacent instructions (70_reset_and_hazards.md). -/

namespace Sys2Proof.Proofs
open Sys2Proof Sys2Proof.Machine

/-- Settles O33: `,` advances to the `.` with the byte in the current cell, and `.` writes what that cell reads. -/
theorem echoWritesTheByteRead : Obligations.EchoWritesTheByteRead := by
  intro s b rest hp hl hin hout hinp
  have hread := step_input_byte hp hl hin hinp
  have hcell := Memory.read_write_same s.tape s.dp b
  have hwrite := step_output (s := (({ s with inp := rest } : State).setCell b).advance) hp hl hout hcell
  exact ⟨_, (runFor_succ 1 hread).trans (runFor_succ 0 hwrite), rfl, rfl, rfl, hcell⟩

/-- Settles O7: either cycle leaves the reset state of the build that the two engines share. -/
theorem resetDiscardsTheRun : Obligations.ResetDiscardsTheRun := by
  intro p l s s' hrst hcfg
  have hreset' : cycle p s' = .next (State.resetWith s.cfg l.prog l.inp) := hcfg ▸ cycle_rst hrst s'
  exact ⟨_, _, cycle_rst hrst s, hreset', rfl, rfl, rfl, rfl⟩

end Sys2Proof.Proofs
end
